-- ==== Sys2Proof/Word.lean ====
section
/-! DEFINITION. The words of the machine: Samples, parameter values, command and response words, and the two ports. -/

namespace Sys2Proof

/-- A Sample: a 16-bit two's complement word, `SMIN` = -32768 to `SMAX` = 32767 (R6, R9, R31). -/
abbrev Sample := BitVec 16

/-- The value of a parameter register and the operand of a SET: 32 bits, two's complement (R7 `PARAM_W`, R34). -/
abbrev ParamWord := BitVec 32

/-- A command word: opcode in bits 39..32, operand in bits 31..0 (R90). -/
abbrev CommandWord := BitVec 40

/-- A response word: status in bits 39..32, data in bits 31..0 (R94). -/
abbrev ResponseWord := BitVec 40

/-- The two ports (R90): `dp` takes Samples, `cp` takes control commands. -/
inductive PortId where
  | dp
  | cp
deriving DecidableEq, Repr

/-- The two command errors (R95, R232), the only synchronous errors of the hardware. -/
inductive CmdError where
  /-- `ILLEGAL_OPCODE`: the opcode byte is not one this port accepts. -/
  | illegalOpcode
  /-- `RESERVED_FIELD`: the opcode is accepted and a bit that must be 0 is 1. -/
  | reservedField
deriving DecidableEq, Repr

/-- One row of the opcode table (R93, spec/opcode_table.json). -/
structure OpcodeRow where
  mnemonic : String
  port     : PortId
  mask     : CommandWord
  pattern  : CommandWord
deriving DecidableEq, Repr

/-- A command word presented at a port (R90, R98). -/
structure Presented where
  port : PortId
  word : CommandWord
deriving DecidableEq, Repr

end Sys2Proof
end

