-- ==== Sys2Proof/Config.lean ====
section
/-! DEFINITION. The constants the spec fixes (R6) and the configuration fields it leaves named (R7). -/

namespace Sys2Proof

/-- The nine delay lines: `rv0` to `rv7` are the ReverbBank in bank order (`k` = 0..7), `echo` is the EchoLine (`k` = 8)
(R30). -/
inductive LineId where
  | rv0 | rv1 | rv2 | rv3 | rv4 | rv5 | rv6 | rv7 | echo
deriving DecidableEq, Repr

/-- The four parameter registers, in the order of their register numbers 0 to 3 (R34). -/
inductive ParamId where
  | gain | reverb | echo | pitch
deriving DecidableEq, Repr

/-- `TIE` (R7, R166): what ROUND does with a value exactly halfway between two integers. -/
inductive Tie where
  | halfUp | halfAway | halfEven
deriving DecidableEq, Repr

/-- `OOR_POLICY` (R7, R210): what a SET does with a value outside its register's range. -/
inductive OorPolicy where
  | clamp | reject
deriving DecidableEq, Repr

/-- `NUM` (R7, R9): the arithmetic of the values between the stages. UNVERIFIED, unsafe against an implementation in
floating point (log 6): exact rationals are the only arithmetic the spec gives a meaning. -/
inductive Num where
  | exact
deriving DecidableEq, Repr

/-- The configuration fields of R7. -/
structure Config where
  num : Num
  tie : Tie
  oor : OorPolicy
deriving DecidableEq, Repr

/-- The values R7 takes: exact arithmetic, `half_up`, `clamp`. -/
def Config.taken : Config := { num := .exact, tie := .halfUp, oor := .clamp }

/-- `FS` (R6): the sample rate in Hz. -/
def Config.fs : Nat := 44100

/-- `ECHO_MS` (R6): the echo delay in milliseconds. -/
def Config.echoMs : Nat := 300

/-- `ECHO_CAP` (R6): `FS * ECHO_MS / 1000`. It is a constant: no command and no register sets the rate (D13). -/
def Config.echoCap : Nat := Config.fs * Config.echoMs / 1000

/-- `CAP[k]` (R6): the capacity of each delay line in words. -/
def Config.cap : LineId → Nat
  | .rv0 => 1557
  | .rv1 => 1617
  | .rv2 => 1491
  | .rv3 => 1422
  | .rv4 => 1277
  | .rv5 => 1356
  | .rv6 => 1188
  | .rv7 => 1116
  | .echo => Config.echoCap

/-- The eight lines of the ReverbBank in bank order (R130). -/
def Config.bank : List LineId := [.rv0, .rv1, .rv2, .rv3, .rv4, .rv5, .rv6, .rv7]

/-- All nine lines, in the order `k` = 0..8. -/
def Config.allLines : List LineId := Config.bank ++ [.echo]

/-- `SMIN` and `SMAX` (R6). -/
def Config.smin : Int := -32768
def Config.smax : Int := 32767

/-- `PSCALE` (R7): a register value `n` of GAIN, REVERB or ECHO means `n/1000`. -/
def Config.pscale : Rat := 1000

/-- `FB_REVERB` (R6). -/
def Config.fbReverb : Rat := 1 / 2

/-- `FB_ECHO` (R6). -/
def Config.fbEcho : Rat := 2 / 5

/-- The defaults of the four parameters in register units (R45, R260). -/
def Config.gainDefault : ParamWord := 800
def Config.reverbDefault : ParamWord := 400
def Config.echoDefault : ParamWord := 300
def Config.pitchDefault : ParamWord := 0

/-- The range of a parameter in register units; GAIN has none (R34, R210). -/
def Config.paramRange : ParamId → Option (Int × Int)
  | .gain => none
  | .reverb => some (0, 1000)
  | .echo => some (0, 1000)
  | .pitch => some (-6, 6)

end Sys2Proof
end

