-- ==== Sys2Proof/Syntax.lean ====
section
/-! DEFINITION. The ten commands of R93. -/

namespace Sys2Proof

/-- A command, one constructor per row of spec/opcode_table.json. Operands are two's complement words taken whole (R92). -/
inductive Instr where
  /-- PROC x, format S (R180). -/
  | proc (x : Sample)
  /-- RESET, format Z (R182). -/
  | reset
  /-- SETG v, format V (R201). -/
  | setg (v : ParamWord)
  /-- SETR v, format V (R202). -/
  | setr (v : ParamWord)
  /-- SETE v, format V (R203). -/
  | sete (v : ParamWord)
  /-- SETP v, format V (R204). -/
  | setp (v : ParamWord)
  /-- GETG, format Z (R206). -/
  | getg
  /-- GETR, format Z (R207). -/
  | getr
  /-- GETE, format Z (R208). -/
  | gete
  /-- GETP, format Z (R209). -/
  | getp
deriving DecidableEq, Repr

/-- The mnemonic of a command as R93 writes it. -/
def Instr.mnemonic : Instr → String
  | .proc _ => "PROC"
  | .reset => "RESET"
  | .setg _ => "SETG"
  | .setr _ => "SETR"
  | .sete _ => "SETE"
  | .setp _ => "SETP"
  | .getg => "GETG"
  | .getr => "GETR"
  | .gete => "GETE"
  | .getp => "GETP"

/-- The port a command belongs to (R93 "port", R110): PROC is at `dp`, every other at `cp`. -/
def Instr.port : Instr → PortId
  | .proc _ => .dp
  | .reset => .cp
  | .setg _ => .cp
  | .setr _ => .cp
  | .sete _ => .cp
  | .setp _ => .cp
  | .getg => .cp
  | .getr => .cp
  | .gete => .cp
  | .getp => .cp

end Sys2Proof
end

