-- ==== Sys2Proof/WellFormed.lean ====
section
/-! DEFINITION. What makes a command well formed. The operand types already hold exactly the values the encoding admits
(R92), so the one check left is the port: a listing may place a command at a port that does not accept it (R96, R110). -/

namespace Sys2Proof

/-- A command is well formed at port `q` when it is a command of that port: PROC at `dp`, every other at `cp` (R96). -/
def WellFormed (q : PortId) (i : Instr) : Bool := decide (i.port = q)

end Sys2Proof
end

