-- ==== Sys2Proof/Decode.lean ====
section
/-! DEFINITION. Decoding a command word at a port (R98), the encoder of R90 to R93, and the opcode table. -/

namespace Sys2Proof

/-- `C[39:32]` (R90). -/
def opcodeField (w : CommandWord) : BitVec 8 := w.extractLsb' 32 8

/-- `C[31:0]`, the operand of format V and the reserved field of format Z (R91). -/
def operandField (w : CommandWord) : BitVec 32 := w.extractLsb' 0 32

/-- `C[31:16]`, the reserved field of format S (R91). -/
def rsvField (w : CommandWord) : BitVec 16 := w.extractLsb' 16 16

/-- `C[15:0]`, the Sample of format S (R91). -/
def sampleField (w : CommandWord) : Sample := w.extractLsb' 0 16

/-- The opcode bytes port `cp` accepts (R96, R98). -/
def cpOpcodes : List (BitVec 8) := [0x02, 0x10, 0x11, 0x12, 0x13, 0x20, 0x21, 0x22, 0x23]

/-- Whether a port accepts an opcode byte, the first test of R98. -/
def accepts (q : PortId) (op : BitVec 8) : Bool :=
  match q with
  | .dp => op == 0x01
  | .cp => cpOpcodes.contains op

/-- Format S (R91): bits 31..16 must be 0, bits 15..0 are the Sample. -/
def formatS (w : CommandWord) (mk : Sample → Instr) : Except CmdError Instr :=
  if rsvField w = 0 then .ok (mk (sampleField w)) else .error .reservedField

/-- Format V (R91): the whole operand is the value, no bit is reserved. -/
def formatV (w : CommandWord) (mk : ParamWord → Instr) : Except CmdError Instr :=
  .ok (mk (operandField w))

/-- Format Z (R91): the whole operand must be 0. -/
def formatZ (w : CommandWord) (i : Instr) : Except CmdError Instr :=
  if operandField w = 0 then .ok i else .error .reservedField

/-- Decoding by R98: the opcode check first, then the reserved field, then the operand. Total on all words at both ports. -/
def decode (q : PortId) (w : CommandWord) : Except CmdError Instr :=
  let op := opcodeField w
  if accepts q op = false then .error .illegalOpcode
  else if op = 0x01 then formatS w .proc
  else if op = 0x02 then formatZ w .reset
  else if op = 0x10 then formatV w .setg
  else if op = 0x11 then formatV w .setr
  else if op = 0x12 then formatV w .sete
  else if op = 0x13 then formatV w .setp
  else if op = 0x20 then formatZ w .getg
  else if op = 0x21 then formatZ w .getr
  else if op = 0x22 then formatZ w .gete
  else if op = 0x23 then formatZ w .getp
  else .error .illegalOpcode

/-- The opcode byte of a command (R93). -/
def opcodeOf : Instr → BitVec 8
  | .proc _ => 0x01
  | .reset => 0x02
  | .setg _ => 0x10
  | .setr _ => 0x11
  | .sete _ => 0x12
  | .setp _ => 0x13
  | .getg => 0x20
  | .getr => 0x21
  | .gete => 0x22
  | .getp => 0x23

/-- The operand of a command, zeros in every reserved bit (R91). -/
def operandOf : Instr → BitVec 32
  | .proc x => x.setWidth 32
  | .reset => 0
  | .setg v => v
  | .setr v => v
  | .sete v => v
  | .setp v => v
  | .getg => 0
  | .getr => 0
  | .gete => 0
  | .getp => 0

/-- The word of a command: opcode, then operand (R90). -/
def encode (i : Instr) : CommandWord := opcodeOf i ++ operandOf i

/-- The rows of spec/opcode_table.json: port, mask and match (R93). -/
def opcodeRows : List OpcodeRow :=
  [ { mnemonic := "PROC", port := .dp, mask := 0xFFFFFF0000, pattern := 0x0100000000 },
    { mnemonic := "RESET", port := .cp, mask := 0xFFFFFFFFFF, pattern := 0x0200000000 },
    { mnemonic := "SETG", port := .cp, mask := 0xFF00000000, pattern := 0x1000000000 },
    { mnemonic := "SETR", port := .cp, mask := 0xFF00000000, pattern := 0x1100000000 },
    { mnemonic := "SETE", port := .cp, mask := 0xFF00000000, pattern := 0x1200000000 },
    { mnemonic := "SETP", port := .cp, mask := 0xFF00000000, pattern := 0x1300000000 },
    { mnemonic := "GETG", port := .cp, mask := 0xFFFFFFFFFF, pattern := 0x2000000000 },
    { mnemonic := "GETR", port := .cp, mask := 0xFFFFFFFFFF, pattern := 0x2100000000 },
    { mnemonic := "GETE", port := .cp, mask := 0xFFFFFFFFFF, pattern := 0x2200000000 },
    { mnemonic := "GETP", port := .cp, mask := 0xFFFFFFFFFF, pattern := 0x2300000000 } ]

/-- The command word whose `nbits` bits are `w`, every bit above them 0. -/
def tableWord (nbits w : Nat) : CommandWord := BitVec.ofNat 40 (w % 2 ^ nbits)

/-- The port a word is presented at when a listing names none (R110): `dp` for the opcode of PROC, else `cp`. DESIGN CHOICE
for an undefined opcode, safe: both ports answer it alike (R97 (a); log 4). -/
def impliedPort (w : CommandWord) : PortId := if opcodeField w = 0x01 then .dp else .cp

/-- The command the decoder reads from a word of the table, at the port of its row. -/
def decodeTableWord (nbits w : Nat) : Option Instr :=
  match decode (impliedPort (tableWord nbits w)) (tableWord nbits w) with
  | .ok i => some i
  | .error _ => none

end Sys2Proof
end

