-- ==== Sys2Proof/Machine/State.lean ====
section
/-! DEFINITION. The state record of R30, the reasons a step could stop, and the state after power-on reset (R45, R260). -/

namespace Sys2Proof.Machine

/-- A delay memory: its words by word index, in the one canonical form of `Memory.wf`. The unit is one 16-bit word, the only
access width (R67, R69); the spec has no byte-addressed memory (log 5). -/
abbrev Memory := List (Nat × Sample)

/-- What an index that is not listed reads as: 0, the content every word has after either reset (R45). -/
def Memory.unlisted : Sample := 0

/-- The canonical form, from index `lo` up and below `cap`: indices strictly rising, no listed word 0. -/
def Memory.wfFrom (lo cap : Nat) : Memory → Bool
  | [] => true
  | (a, v) :: m => decide (lo ≤ a) && decide (a < cap) && decide (v ≠ Memory.unlisted) && Memory.wfFrom (a + 1) cap m

/-- The canonical form of a delay memory of `cap` words. -/
def Memory.wf (cap : Nat) (m : Memory) : Bool := Memory.wfFrom 0 cap m

/-- Delay line `k`: the memory `MEM[k]` and the write cursor `CUR[k]`. The cursor's type is the naturals below the capacity,
as R33 allows, so that an index out of range cannot be formed (R62; log 10). -/
structure DelayLine (cap : Nat) where
  mem : Memory
  cur : Fin cap
deriving DecidableEq, Repr

/-- The nine delay lines of R30: lines 0 to 7 are the ReverbBank, line 8 is the EchoLine. -/
structure DelayLines where
  line0 : DelayLine (Config.cap .rv0)
  line1 : DelayLine (Config.cap .rv1)
  line2 : DelayLine (Config.cap .rv2)
  line3 : DelayLine (Config.cap .rv3)
  line4 : DelayLine (Config.cap .rv4)
  line5 : DelayLine (Config.cap .rv5)
  line6 : DelayLine (Config.cap .rv6)
  line7 : DelayLine (Config.cap .rv7)
  line8 : DelayLine (Config.cap .echo)
deriving DecidableEq, Repr

/-- The four parameter registers (R34): 32-bit two's complement words. -/
structure EffectParams where
  gain   : ParamWord
  reverb : ParamWord
  echo   : ParamWord
  pitch  : ParamWord
deriving DecidableEq, Repr

/-- The machine. `lines` and `params` are the whole architectural state (R30). The other four fields are the MODEL'S own, not
the spec's state (R46): they carry what a step takes and gives beside the state, since `step` has no other argument. -/
structure State where
  /-- The nine delay memories and cursors (R30). -/
  lines   : DelayLines
  /-- GAIN, REVERB, ECHO, PITCH (R34). -/
  params  : EffectParams
  /-- The configuration fields of R7; no step changes them. DESIGN CHOICE, safe (log 1). -/
  cfg     : Config
  /-- The presented words not yet executed, in the one total order of R77. DESIGN CHOICE, safe (log 2). -/
  pending : List Presented
  /-- The responses given at port `dp`, oldest first (R78). DESIGN CHOICE, safe (log 3). -/
  dpOut   : List ResponseWord
  /-- The responses given at port `cp`, oldest first (R78). DESIGN CHOICE, safe (log 3). -/
  cpOut   : List ResponseWord
deriving DecidableEq, Repr

/-- A fault. Nothing raises one, safe: R11 "No step faults, hangs, blocks or refuses", so the type is empty (log 11). -/
inductive Fault where
deriving DecidableEq, Repr

/-- A refusal. -/
inductive Refusal where
  /-- An instruction without a meaning; only an arm of `exec` could raise it and none does. Safe: it stops where the hardware
  would go on. -/
  | notModelled (mnemonic : String)
deriving DecidableEq, Repr

/-- A line of `cap` words with all words 0 and the cursor at 0 (R45). -/
def DelayLine.zero (cap : Nat) (h : 0 < cap) : DelayLine cap := { mem := [], cur := ⟨0, h⟩ }

/-- The nine lines with all words 0 and all cursors 0 (R45). -/
def DelayLines.zero : DelayLines where
  line0 := .zero _ (by decide)
  line1 := .zero _ (by decide)
  line2 := .zero _ (by decide)
  line3 := .zero _ (by decide)
  line4 := .zero _ (by decide)
  line5 := .zero _ (by decide)
  line6 := .zero _ (by decide)
  line7 := .zero _ (by decide)
  line8 := .zero _ (by decide)

/-- The defaults 0.8, 0.4, 0.3 and 0 (R45). -/
def EffectParams.defaults : EffectParams :=
  { gain := Config.gainDefault, reverb := Config.reverbDefault, echo := Config.echoDefault, pitch := Config.pitchDefault }

/-- The state after power-on reset (R260): lines zero, parameters at their defaults, no command in progress and no response
pending, and the configuration R7 takes. -/
def State.reset : State :=
  { lines := .zero, params := .defaults, cfg := .taken, pending := [], dpOut := [], cpOut := [] }

end Sys2Proof.Machine
end

