-- ==== Sys2Proof/Machine/Flags.lean ====
section
/-! DEFINITION. The hardware has no flag (R42); its only outcome indication is the status byte of a response. This file holds
the status codes (R95) and the response words (R94). -/

namespace Sys2Proof.Machine

/-- Status `OK` (R95). -/
def statusOk : BitVec 8 := 0x00

/-- The status code of each command error (R95). -/
def statusOf : CmdError → BitVec 8
  | .illegalOpcode => 0x01
  | .reservedField => 0x02

/-- `P = status ++ data` (R94). -/
def responseWord (status : BitVec 8) (data : BitVec 32) : ResponseWord := status ++ data

/-- The response of a successful command: status `OK` and its data (R94). -/
def okResponse (data : BitVec 32) : ResponseWord := responseWord statusOk data

/-- The response of a command error: its code, and data 0 (R94, R231). -/
def errorResponse (e : CmdError) : ResponseWord := responseWord (statusOf e) 0

/-- `zext_32(enc_16(y))`, the data of a PROC response: bits 31..16 are 0 (R94). -/
def sampleData (y : Sample) : BitVec 32 := y.setWidth 32

end Sys2Proof.Machine
end

