-- ==== Sys2Proof/Machine/Operands.lean ====
section
/-! DEFINITION. Operand forms and numbers: the signed reading of fields (R8, R92), parameters as rationals (R7 PSCALE), and
the clamp of a SET (R210). -/

namespace Sys2Proof.Machine

/-- A Sample as the rational of the same value, nothing scaled or shifted (R92). -/
def sampleRat (x : Sample) : Rat := (x.toInt : Rat)

/-- The number a register of GAIN, REVERB or ECHO denotes: `n/1000` (R7 `PSCALE`, R34). -/
def milli (n : ParamWord) : Rat := (n.toInt : Rat) / Config.pscale

/-- `enc_16` (R8) of an integer in the Sample range. -/
def enc16 (n : Int) : Sample := BitVec.ofInt 16 n

/-- `enc_32` (R8) of an integer in the 32-bit signed range. -/
def enc32 (n : Int) : ParamWord := BitVec.ofInt 32 n

/-- `CLAMP(v, lo, hi)` (R210). -/
def clampInt (v lo hi : Int) : Int := if v < lo then lo else if hi < v then hi else v

/-- What a SET of register `p` stores when the register holds `old` and the operand is `v` (R200, R210). `reject` is the
alternative of R210: out of range, the register keeps its value; in range it stores `v` (DEDUCED, safe; log 12). -/
def accepted (policy : OorPolicy) (p : ParamId) (old v : ParamWord) : ParamWord :=
  match Config.paramRange p with
  | none => v
  | some (lo, hi) =>
    match policy with
    | .clamp => enc32 (clampInt v.toInt lo hi)
    | .reject => if v.toInt < lo ∨ hi < v.toInt then old else v

end Sys2Proof.Machine
end

