-- ==== Sys2Proof/Machine/Ops.lean ====
section
/-! DEFINITION. The named operations on memories, cursors, registers and ports: the access primitives of R62 to R66, register
access (R34), responses (R94), the command error (R231), and fetching the next command (R76, R77). -/

namespace Sys2Proof.Machine

/-- The word held at index `a` of a memory. -/
def Memory.read (m : Memory) (a : Nat) : Sample :=
  match m with
  | [] => Memory.unlisted
  | (b, v) :: rest => if b = a then v else Memory.read rest a

/-- Drops every listing of index `a`, so that it reads as the unlisted value. -/
def Memory.unlist (m : Memory) (a : Nat) : Memory := m.filter fun c => decide (c.1 ≠ a)

/-- Lists `v` at index `a`, before the first greater index. -/
def Memory.list (m : Memory) (a : Nat) (v : Sample) : Memory :=
  match m with
  | [] => [(a, v)]
  | (b, u) :: rest => if a < b then (a, v) :: (b, u) :: rest else (b, u) :: Memory.list rest a v

/-- Replaces the word at index `a` by `v`, keeping the canonical form: the unlisted value is not listed. -/
def Memory.write (m : Memory) (a : Nat) (v : Sample) : Memory :=
  if v = Memory.unlisted then m.unlist a else (m.unlist a).list a v

/-- `DLRead`: the Sample at the line's cursor (R64). -/
def DelayLine.readAtCursor {cap : Nat} (l : DelayLine cap) : Sample := l.mem.read l.cur.val

/-- `DLWrite`: stores `v` at the line's cursor (R65). -/
def DelayLine.writeAtCursor {cap : Nat} (l : DelayLine cap) (v : Sample) : DelayLine cap :=
  { l with mem := l.mem.write l.cur.val v }

/-- The next cursor: `(c + 1) mod cap` (R66). -/
def nextCursor {cap : Nat} (c : Fin cap) : Fin cap :=
  ⟨(c.val + 1) % cap, Nat.mod_lt _ (Nat.zero_lt_of_lt c.isLt)⟩

/-- `DLAdvance`: the cursor moves by one, modulo the capacity (R66). -/
def DelayLine.advance {cap : Nat} (l : DelayLine cap) : DelayLine cap := { l with cur := nextCursor l.cur }

/-- All words 0 and the cursor at 0, as RESET leaves a line (R182). The loop of R182 over every index leaves the empty listing;
it is written here at once (log 9). -/
def DelayLine.cleared {cap : Nat} (l : DelayLine cap) : DelayLine cap :=
  { mem := [], cur := ⟨0, Nat.zero_lt_of_lt l.cur.isLt⟩ }

/-- Delay line `k` (R30). -/
def DelayLines.line (ls : DelayLines) : (k : LineId) → DelayLine (Config.cap k)
  | .rv0 => ls.line0
  | .rv1 => ls.line1
  | .rv2 => ls.line2
  | .rv3 => ls.line3
  | .rv4 => ls.line4
  | .rv5 => ls.line5
  | .rv6 => ls.line6
  | .rv7 => ls.line7
  | .echo => ls.line8

/-- Replaces delay line `k`; the lines do not alias (R60). -/
def DelayLines.setLine (ls : DelayLines) : (k : LineId) → DelayLine (Config.cap k) → DelayLines
  | .rv0, l => { ls with line0 := l }
  | .rv1, l => { ls with line1 := l }
  | .rv2, l => { ls with line2 := l }
  | .rv3, l => { ls with line3 := l }
  | .rv4, l => { ls with line4 := l }
  | .rv5, l => { ls with line5 := l }
  | .rv6, l => { ls with line6 := l }
  | .rv7, l => { ls with line7 := l }
  | .echo, l => { ls with line8 := l }

/-- `MemRead(k, a)` (R62). -/
def memRead (ls : DelayLines) (k : LineId) (a : Fin (Config.cap k)) : Sample := (ls.line k).mem.read a.val

/-- `MemWrite(k, a, v)` (R63). -/
def memWrite (ls : DelayLines) (k : LineId) (a : Fin (Config.cap k)) (v : Sample) : DelayLines :=
  ls.setLine k { ls.line k with mem := (ls.line k).mem.write a.val v }

/-- `DLRead(k)` (R64). -/
def dlRead (ls : DelayLines) (k : LineId) : Sample := (ls.line k).readAtCursor

/-- `DLWrite(k, v)` (R65). -/
def dlWrite (ls : DelayLines) (k : LineId) (v : Sample) : DelayLines :=
  ls.setLine k ((ls.line k).writeAtCursor v)

/-- `DLAdvance(k)` (R66). -/
def dlAdvance (ls : DelayLines) (k : LineId) : DelayLines := ls.setLine k (ls.line k).advance

/-- Every line cleared, the whole effect of RESET on the lines (R182). -/
def clearLines (ls : DelayLines) : DelayLines where
  line0 := ls.line0.cleared
  line1 := ls.line1.cleared
  line2 := ls.line2.cleared
  line3 := ls.line3.cleared
  line4 := ls.line4.cleared
  line5 := ls.line5.cleared
  line6 := ls.line6.cleared
  line7 := ls.line7.cleared
  line8 := ls.line8.cleared

/-- The value of a parameter register, whole (R34, R69). -/
def readParam (ps : EffectParams) : ParamId → ParamWord
  | .gain => ps.gain
  | .reverb => ps.reverb
  | .echo => ps.echo
  | .pitch => ps.pitch

/-- Writes a parameter register, whole (R34, R69). -/
def writeParam (ps : EffectParams) (p : ParamId) (n : ParamWord) : EffectParams :=
  match p with
  | .gain => { ps with gain := n }
  | .reverb => { ps with reverb := n }
  | .echo => { ps with echo := n }
  | .pitch => { ps with pitch := n }

/-- Gives a response word at a port, after those given before (R78). -/
def giveResponse (q : PortId) (r : ResponseWord) (s : State) : State :=
  match q with
  | .dp => { s with dpOut := s.dpOut ++ [r] }
  | .cp => { s with cpOut := s.cpOut ++ [r] }

/-- `respond(d)` at port `q`: status `OK` and data `d` (R10, R94). -/
def respond (q : PortId) (d : BitVec 32) (s : State) : State := giveResponse q (okResponse d) s

/-- `raise CmdError(code)` at port `q`: the error response and nothing else. This is the hardware's only exception (R231); it
saves nothing, changes no mode and goes nowhere, and there is no return from it (R235, R236). -/
def raiseCmdError (q : PortId) (e : CmdError) (s : State) : State := giveResponse q (errorResponse e) s

/-- A host presents words: they come after the words presented before them, in the order in which they are presented (R76, R77,
R272). This is what the world outside does to the machine; no step does it (log 2). -/
def present (l : List Presented) (s : State) : State := { s with pending := s.pending ++ l }

/-- The next command in the total order and the state without it; none when no word is presented (R76, R77, R243). -/
def fetch (s : State) : Option (Presented × State) :=
  match s.pending with
  | [] => none
  | c :: rest => some (c, { s with pending := rest })

end Sys2Proof.Machine
end

