-- ==== Sys2Proof/Machine/Params.lean ====
section
/-! DEFINITION. The parameter commands SETG, SETR, SETE, SETP, GETG, GETR, GETE, GETP (R200 to R210). -/

namespace Sys2Proof.Machine

/-- Every SET (R200): stores the accepted value in register `p` and responds with the value now held. -/
def setParam (p : ParamId) (v : ParamWord) (s : State) : State :=
  let n := accepted s.cfg.oor p (readParam s.params p) v
  respond .cp n { s with params := writeParam s.params p n }

/-- Every GET (R205): responds with the value of register `p`. -/
def getParam (p : ParamId) (s : State) : State := respond .cp (readParam s.params p) s

/-- SETG v (R201). -/
def execSetg (v : ParamWord) (s : State) : Host.Outcome State Fault Refusal := .next (setParam .gain v s)

/-- SETR v (R202). -/
def execSetr (v : ParamWord) (s : State) : Host.Outcome State Fault Refusal := .next (setParam .reverb v s)

/-- SETE v (R203). -/
def execSete (v : ParamWord) (s : State) : Host.Outcome State Fault Refusal := .next (setParam .echo v s)

/-- SETP v (R204). -/
def execSetp (v : ParamWord) (s : State) : Host.Outcome State Fault Refusal := .next (setParam .pitch v s)

/-- GETG (R206). -/
def execGetg (s : State) : Host.Outcome State Fault Refusal := .next (getParam .gain s)

/-- GETR (R207). -/
def execGetr (s : State) : Host.Outcome State Fault Refusal := .next (getParam .reverb s)

/-- GETE (R208). -/
def execGete (s : State) : Host.Outcome State Fault Refusal := .next (getParam .echo s)

/-- GETP (R209). -/
def execGetp (s : State) : Host.Outcome State Fault Refusal := .next (getParam .pitch s)

end Sys2Proof.Machine
end

