-- ==== Sys2Proof/Machine/Saturator.lean ====
section
/-! DEFINITION. The Saturator: ROUND (R166) and SAT (R165). -/

namespace Sys2Proof.Machine

/-- The integer taken for a value exactly halfway between `f` and `f + 1` (the table of R166); `positive` says on which side
of zero the value lies. -/
def roundHalfway (tie : Tie) (f : Int) (positive : Bool) : Int :=
  match tie with
  | .halfUp => f + 1
  | .halfAway => if positive then f + 1 else f
  | .halfEven => if f % 2 = 0 then f else f + 1

/-- `ROUND(v)` (R166): the nearest integer, and at an exact half what `TIE` says. -/
def round (tie : Tie) (v : Rat) : Int :=
  let f := v.floor
  if v - f < 1 / 2 then f
  else if 1 / 2 < v - f then f + 1
  else roundHalfway tie f (decide (0 < v))

/-- The integer `SAT(v)` (R165): rounding first, then the clamp to `SMIN`..`SMAX`. -/
def satInt (tie : Tie) (v : Rat) : Int :=
  let n := round tie v
  if n < Config.smin then Config.smin else if Config.smax < n then Config.smax else n

/-- `SAT(v)` as the 16-bit Sample (R165). -/
def sat (tie : Tie) (v : Rat) : Sample := enc16 (satInt tie v)

end Sys2Proof.Machine
end

