-- ==== Sys2Proof/Machine/Gain.lean ====
section
/-! DEFINITION. The Gain Stage, first stage of PROC (R120). -/

namespace Sys2Proof.Machine

/-- `GAINSTAGE(x, GAIN)` (R120): the exact product, not rounded and not clamped. -/
def gainStage (x : Sample) (gain : ParamWord) : Rat := sampleRat x * milli gain

end Sys2Proof.Machine
end

