-- ==== Sys2Proof/Machine/Reverb.lean ====
section
/-! DEFINITION. The Reverb Engine, second stage of PROC (R130 to R134). -/

namespace Sys2Proof.Machine

/-- The comb-filter step of line `k` on its state (R131, steps 1 to 3): the old content `d` is read, `SAT(s0 + d/2)` is written
over it, and then the cursor moves. -/
def combStep (tie : Tie) (s0 : Rat) (k : LineId) (ls : DelayLines) : DelayLines :=
  let d := dlRead ls k
  dlAdvance (dlWrite ls k (sat tie (s0 + sampleRat d * Config.fbReverb))) k

/-- The loop of R130 over the lines `ks` in order, with the running sum `acc` of the old contents (step 4 of R131). -/
def combLoop (tie : Tie) (s0 : Rat) (ks : List LineId) (ls : DelayLines) (acc : Int) : DelayLines × Int :=
  match ks with
  | [] => (ls, acc)
  | k :: rest => combLoop tie s0 rest (combStep tie s0 k ls) (acc + (dlRead ls k).toInt)

/-- `wet = acc / 8` and the blend `s0 * (1 - r) + wet * r` (R133). -/
def reverbBlend (s0 : Rat) (acc : Int) (r : Rat) : Rat :=
  let wet : Rat := acc / 8
  s0 * (1 - r) + wet * r

/-- `REVERBSTAGE(s0, REVERB)` (R130): bypassed when the register is 0 (R132). -/
def reverbStage (tie : Tie) (s0 : Rat) (reverb : ParamWord) (ls : DelayLines) : DelayLines × Rat :=
  if reverb = 0#32 then (ls, s0)
  else
    let out := combLoop tie s0 Config.bank ls 0
    (out.1, reverbBlend s0 out.2 (milli reverb))

end Sys2Proof.Machine
end

