-- ==== Sys2Proof/Machine/Echo.lean ====
section
/-! DEFINITION. The Echo Engine, third stage of PROC (R150 to R152). -/

namespace Sys2Proof.Machine

/-- The feedback write and the advance of the echo line (R150): `SAT(s1 + p * 2/5)` over the old content `p`. -/
def echoStep (tie : Tie) (s1 : Rat) (ls : DelayLines) : DelayLines :=
  let p := dlRead ls .echo
  dlAdvance (dlWrite ls .echo (sat tie (s1 + sampleRat p * Config.fbEcho))) .echo

/-- `ECHOSTAGE(s1, ECHO)` (R150): bypassed when the register is 0 (R151); the blend uses the value read before the write
(R152). -/
def echoStage (tie : Tie) (s1 : Rat) (echo : ParamWord) (ls : DelayLines) : DelayLines × Rat :=
  if echo = 0#32 then (ls, s1)
  else
    let e := milli echo
    (echoStep tie s1 ls, s1 * (1 - e) + sampleRat (dlRead ls .echo) * e)

end Sys2Proof.Machine
end

