-- ==== Sys2Proof/Machine/Processor.lean ====
section
/-! DEFINITION. The Processor commands PROC and RESET (R180 to R182). -/

namespace Sys2Proof.Machine

/-- The stages of one PROC in their fixed order gain, reverb, echo, saturator (R180, R181), in exact arithmetic: the lines
afterwards and the output Sample. Each parameter is read once, from `ps`, as it stands at the start (R79). -/
def procExact (tie : Tie) (x : Sample) (ps : EffectParams) (ls : DelayLines) : DelayLines × Sample :=
  let s0 := gainStage x (readParam ps .gain)
  let rev := reverbStage tie s0 (readParam ps .reverb) ls
  let ech := echoStage tie rev.2 (readParam ps .echo) rev.1
  (ech.1, sat tie ech.2)

/-- The datapath under the configuration field `NUM` (R7); `exact` is the only arithmetic with a meaning (log 6). -/
def datapath (cfg : Config) (x : Sample) (ps : EffectParams) (ls : DelayLines) : DelayLines × Sample :=
  match cfg.num with
  | .exact => procExact cfg.tie x ps ls

/-- PROC x (R180). -/
def execProc (x : Sample) (s : State) : Host.Outcome State Fault Refusal :=
  let out := datapath s.cfg x s.params s.lines
  .next (respond .dp (sampleData out.2) { s with lines := out.1 })

/-- RESET (R182): every word and every cursor 0, the parameters left as they are. -/
def execReset (s : State) : Host.Outcome State Fault Refusal :=
  .next (respond .cp 0 { s with lines := clearLines s.lines })

end Sys2Proof.Machine
end

