-- ==== Sys2Proof/Machine/Dispatch.lean ====
section
/-! DEFINITION. The meaning of every command, one arm per constructor. -/

namespace Sys2Proof.Machine

def exec (i : Instr) (s : State) : Host.Outcome State Fault Refusal :=
  match i with
  | .proc x => Sys2Proof.Machine.execProc x s
  | .reset => Sys2Proof.Machine.execReset s
  | .setg v => Sys2Proof.Machine.execSetg v s
  | .setr v => Sys2Proof.Machine.execSetr v s
  | .sete v => Sys2Proof.Machine.execSete v s
  | .setp v => Sys2Proof.Machine.execSetp v s
  | .getg => Sys2Proof.Machine.execGetg s
  | .getr => Sys2Proof.Machine.execGetr s
  | .gete => Sys2Proof.Machine.execGete s
  | .getp => Sys2Proof.Machine.execGetp s

end Sys2Proof.Machine
end

