-- ==== Sys2Proof/Machine/Step.lean ====
section
/-! DEFINITION. One step of the block: it takes the next command in the total order (R76, R77), decodes it at its port (R98),
and executes it or answers its error. -/

namespace Sys2Proof.Machine

/-- One step. With no word presented the block does nothing and holds its state (R243; log 8). -/
def step (s : State) : Host.Outcome State Fault Refusal :=
  match fetch s with
  | none => .next s
  | some (c, s') =>
    match decode c.port c.word with
    | .ok i => exec i s'
    | .error e => .next (raiseCmdError c.port e s')

/-- `s` with the table's word presented, before all others, at the port its opcode implies (R110): the next step takes exactly
it. It stands for a host's presenting a word (log 4). -/
def State.withFetchWord (s : State) (nbits w : Nat) : State :=
  { s with pending := { port := impliedPort (tableWord nbits w), word := tableWord nbits w } :: s.pending }

end Sys2Proof.Machine
end

