-- ==== Sys2Proof/Machine/Assembler.lean ====
section
/-! DEFINITION. The text syntax of commands and the pseudo-instructions PROCESS and DEFAULTS (R110 to R113): from a listing to
the words the hosts present. A text is a list of characters. What the rules leave unsaid of the notation is log 16. -/

namespace Sys2Proof.Machine

/-- `DEFAULTS` (R113): the power-on values of R45. -/
def defaultCommands : List Instr :=
  [.setg Config.gainDefault, .setr Config.reverbDefault, .sete Config.echoDefault, .setp Config.pitchDefault]

/-- `PROCESS x0, x1, …` (R112): one PROC per Sample, in order. -/
def process (xs : List Sample) : List Instr := xs.map .proc

/-- The pieces of a text between the occurrences of a character. -/
def splitAt (c : Char) : List Char → List (List Char)
  | [] => [[]]
  | x :: rest =>
    if x = c then [] :: splitAt c rest
    else
      match splitAt c rest with
      | [] => [[x]]
      | w :: ws => (x :: w) :: ws

/-- The words of a line, separated by spaces. -/
def wordsOf (t : List Char) : List (List Char) := (splitAt ' ' t).filter fun w => !w.isEmpty

/-- A line without its comment, from `;` to its end (R110). -/
def withoutComment : List Char → List Char
  | [] => []
  | c :: rest => if c = ';' then [] else c :: withoutComment rest

/-- A line without its result, from `->` to its end (R110). -/
def withoutResult : List Char → List Char
  | [] => []
  | '-' :: '>' :: _ => []
  | c :: rest => c :: withoutResult rest

/-- The digits of the ten hex digits of R111, each at the place of its value; the first ten are the decimal ones. -/
def digitAlphabet : List Char := "0123456789ABCDEF".toList

/-- The value of a digit of base `base`, a letter in either case (log 16): its place in the alphabet. -/
def digitValue (base : Nat) (c : Char) : Option Nat := (digitAlphabet.take base).findIdx? fun d => d == c.toUpper

/-- The number whose digits follow those of `acc`. -/
def readDigits (base acc : Nat) : List Char → Option Nat
  | [] => some acc
  | c :: rest =>
    match digitValue base c with
    | none => none
    | some d => readDigits base (acc * base + d) rest

/-- A decimal natural number, at least one digit. -/
def readNat (t : List Char) : Option Nat := if t.isEmpty then none else readDigits 10 0 t

/-- A sign, then what `body` reads. -/
def readSigned (body : List Char → Option Nat) : List Char → Option Int
  | '-' :: rest => (body rest).map fun n => -(n : Int)
  | t => (body t).map fun n => (n : Int)

/-- A magnitude in milli units (R111): an integer `n` means `n`, a number with a point and at most three digits after it means that
number times 1000. -/
def readMilliNat (t : List Char) : Option Nat :=
  match splitAt '.' t with
  | [w] => readNat w
  | [w, f] =>
    match readNat w, readNat f with
    | some n, some d => if f.length ≤ 3 then some (n * 1000 + d * 10 ^ (3 - f.length)) else none
    | _, _ => none
  | _ => none

/-- An integer of the Sample range (R111). -/
def readSample (t : List Char) : Option Sample :=
  match readSigned readNat t with
  | none => none
  | some n => if Config.smin ≤ n ∧ n ≤ Config.smax then some (enc16 n) else none

/-- A value of 32 bits, read by `body` (R111). -/
def readParamWord (body : List Char → Option Nat) (t : List Char) : Option ParamWord :=
  match readSigned body t with
  | none => none
  | some n => if -2147483648 ≤ n ∧ n ≤ 2147483647 then some (enc32 n) else none

/-- A word of a PROCESS list: a Sample, or `v*m` for `m` copies (R112). -/
def readCopies (w : List Char) : Option (List Sample) :=
  match splitAt '*' w with
  | [v] => (readSample v).map fun x => [x]
  | [v, m] =>
    match readSample v, readNat m with
    | some x, some n => some (List.replicate n x)
    | _, _ => none
  | _ => none

/-- What stands between two commas of a PROCESS list: exactly one word, with any spaces around it. R112 does not say where spaces
may stand; that one inside an item (`1 2`, `- 3`, `1 * 2`) is no listing is a DESIGN CHOICE, safe (log 16). -/
def readItem (t : List Char) : Option (List Sample) :=
  match wordsOf t with
  | [w] => readCopies w
  | _ => none

/-- The items of PROCESS in order. -/
def readItems : List (List Char) → Option (List Sample)
  | [] => some []
  | t :: rest =>
    match readItem t, readItems rest with
    | some xs, some ys => some (xs ++ ys)
    | _, _ => none

/-- The list of PROCESS from the words after it, put back together with their spaces; without a word it is the empty list
(R112). -/
def readList (args : List (List Char)) : Option (List Sample) :=
  if args.isEmpty then some [] else readItems (splitAt ',' (args.map fun w => ' ' :: w).flatten)

/-- The commands of a line of mnemonic and operands (R110, R111, R112, R113). -/
def readCommands : List (List Char) → Option (List Instr)
  | [] => none
  | m :: args =>
    if m = "PROCESS".toList then (readList args).map process
    else
      match args with
      | [] =>
        if m = "RESET".toList then some [.reset]
        else if m = "GETG".toList then some [.getg]
        else if m = "GETR".toList then some [.getr]
        else if m = "GETE".toList then some [.gete]
        else if m = "GETP".toList then some [.getp]
        else if m = "DEFAULTS".toList then some defaultCommands
        else none
      | [a] =>
        if m = "PROC".toList then (readSample a).map fun x => [.proc x]
        else if m = "SETG".toList then (readParamWord readMilliNat a).map fun v => [.setg v]
        else if m = "SETR".toList then (readParamWord readMilliNat a).map fun v => [.setr v]
        else if m = "SETE".toList then (readParamWord readMilliNat a).map fun v => [.sete v]
        else if m = "SETP".toList then (readParamWord readNat a).map fun v => [.setp v]
        else none
      | _ => none

/-- A raw command word: `0x` and ten hexadecimal digits (R111). -/
def readRaw : List (List Char) → Option CommandWord
  | [ '0' :: 'x' :: h ] => if h.length = 10 then (readDigits 16 0 h).map fun n => BitVec.ofNat 40 n else none
  | _ => none

/-- The command words of a line without its port. -/
def readWords (ws : List (List Char)) : Option (List CommandWord) :=
  match readRaw ws with
  | some w => some [w]
  | none => (readCommands ws).map fun is => is.map encode

/-- One line of a listing (R110): the words it presents, at the port written before them or at the one implied. -/
def readLine (t : List Char) : Option (List Presented) :=
  match wordsOf (withoutResult (withoutComment t)) with
  | [] => some []
  | p :: ws =>
    if p = "DP:".toList then (readWords ws).map fun l => l.map fun w => { port := .dp, word := w }
    else if p = "CP:".toList then (readWords ws).map fun l => l.map fun w => { port := .cp, word := w }
    else (readWords (p :: ws)).map fun l => l.map fun w => { port := impliedPort w, word := w }

/-- The lines of a listing, in order. -/
def readLines : List (List Char) → Option (List Presented)
  | [] => some []
  | t :: rest =>
    match readLine t, readLines rest with
    | some l, some m => some (l ++ m)
    | _, _ => none

/-- A listing: one line after another denotes one total order (R110). None where a line is no line of the syntax. -/
def assemble (t : List Char) : Option (List Presented) := readLines (splitAt '\n' t)

end Sys2Proof.Machine
end

