-- ==== Sys2Proof/Safety.lean ====
section
/-! DEFINITION. The terms in which claims are stated: the machine's invariant, what a port sees, sequences of commands, and
states that differ only in where their cursors stand. -/

namespace Sys2Proof.Machine

/-- Every delay memory is in its canonical form and lists no index at or above its capacity (R31). -/
def DelayLines.wf (ls : DelayLines) : Bool :=
  Config.allLines.all fun k => Memory.wf (Config.cap k) (ls.line k).mem

/-- Whether a register value is legal (the table of R34). -/
def inRange (p : ParamId) (n : ParamWord) : Bool :=
  match Config.paramRange p with
  | none => true
  | some (lo, hi) => decide (lo ≤ n.toInt) && decide (n.toInt ≤ hi)

/-- The parameter registers hold legal values (R34). -/
def EffectParams.legal (ps : EffectParams) : Bool :=
  inRange .gain ps.gain && inRange .reverb ps.reverb && inRange .echo ps.echo && inRange .pitch ps.pitch

/-- The invariant of the machine: canonical memories and legal parameters. The cursor bound of R33 and the 16-bit contents of
R39 hold by the types of `DelayLine` and `Sample`. -/
def State.inv (s : State) : Bool := s.lines.wf && s.params.legal

/-- The words of a list that were presented at port `q`, in their order (R77). -/
def atPort (q : PortId) (l : List Presented) : List CommandWord :=
  (l.filter fun c => decide (c.port = q)).map fun c => c.word

/-- The responses given at port `q`, oldest first (R78). -/
def State.outAt (s : State) (q : PortId) : List ResponseWord :=
  match q with
  | .dp => s.dpOut
  | .cp => s.cpOut

/-- Executes commands one after another, each from the state the one before left. -/
def execAll (is : List Instr) (s : State) : Host.Outcome State Fault Refusal :=
  match is with
  | [] => .next s
  | i :: rest =>
    match exec i s with
    | .next t => execAll rest t
    | .fault r => .fault r
    | .refused r => .refused r

/-- A run of the block: `n` steps. -/
def runSteps (n : Nat) (s : State) : Host.Outcome State Fault Refusal :=
  match n with
  | 0 => .next s
  | m + 1 =>
    match step s with
    | .next t => runSteps m t
    | .fault r => .fault r
    | .refused r => .refused r

/-- Whether a command is a PROC. -/
def isProc : Instr → Bool
  | .proc _ => true
  | .reset => false
  | .setg _ => false
  | .setr _ => false
  | .sete _ => false
  | .setp _ => false
  | .getg => false
  | .getr => false
  | .gete => false
  | .getp => false

/-- The host duty of R266, as a premise: no RESET among these commands. -/
def noReset (is : List Instr) : Prop := Instr.reset ∉ is

/-- The level register that turns the stage of line `k` on: REVERB for the bank, ECHO for the echo line (R132, R151). -/
def levelOf (k : LineId) (ps : EffectParams) : ParamWord := if k = .echo then ps.echo else ps.reverb

/-- Whether a command, executed at `s`, is a PROC in which line `k` is active (R66, R70). -/
def activeAt (k : LineId) (i : Instr) (s : State) : Bool := isProc i && decide (levelOf k s.params ≠ 0#32)

/-- The number of PROCs among these commands in which line `k` is active, as they are executed one after another (R66). -/
def activeProcs (k : LineId) (is : List Instr) (s : State) : Nat :=
  match is with
  | [] => 0
  | i :: rest =>
    (activeAt k i s).toNat +
      match exec i s with
      | .next t => activeProcs k rest t
      | .fault _ => 0
      | .refused _ => 0

/-- Two lines hold the same words when read from their cursors onward (R138). -/
def sameFromCursor {cap : Nat} (l m : DelayLine cap) : Prop :=
  ∀ j : Nat, l.mem.read ((l.cur.val + j) % cap) = m.mem.read ((m.cur.val + j) % cap)

/-- Two states that differ at most in where the cursors stand (R138). -/
structure RotationOf (s t : State) : Prop where
  lines   : ∀ k, sameFromCursor (s.lines.line k) (t.lines.line k)
  params  : s.params = t.params
  cfg     : s.cfg = t.cfg
  pending : s.pending = t.pending
  dpOut   : s.dpOut = t.dpOut
  cpOut   : s.cpOut = t.cpOut

end Sys2Proof.Machine
end

