-- ==== Sys2Proof/Certificates/Slice0/Obligations.lean ====
section
/-! DEFINITION. The statements about the model, each from the numbered rules of spec/. -/

open Sys2Proof Sys2Proof.Machine

/-! The terms the statements are written in, spelled out from the spec and apart from the model's own operations. -/

namespace Sys2Proof.Claims

/-- The response word of a command that was executed: status 0x00 and its data (R94, R95). -/
def okWord (d : BitVec 32) : ResponseWord := 0x00#8 ++ d

/-- The response word of a command error: its code and data 0 (R231, R232). -/
def errorWord : CmdError → ResponseWord
  | .illegalOpcode => 0x0100000000
  | .reservedField => 0x0200000000

/-- The response word that carries the Sample of integer value `y`: bits 31..16 are 0 (R94). -/
def sampleWord (y : Int) : ResponseWord := 0x000000#24 ++ BitVec.ofInt 16 y

/-- The number a GAIN, REVERB or ECHO register denotes (R7 PSCALE). -/
def numberOf (n : ParamWord) : Rat := (n.toInt : Rat) / 1000

/-- The Sample at the cursor of line `k`, as an integer (R64). -/
def oldWord (ls : DelayLines) (k : LineId) : Int := (memRead ls k (ls.line k).cur).toInt

/-- The sum of the eight reverb words at their cursors (R130). -/
def oldSum (ls : DelayLines) : Int :=
  oldWord ls .rv0 + oldWord ls .rv1 + oldWord ls .rv2 + oldWord ls .rv3 +
    oldWord ls .rv4 + oldWord ls .rv5 + oldWord ls .rv6 + oldWord ls .rv7

/-- The value after the reverb stage, from the words the lines hold before the PROC (R130, R132, R133). -/
def afterReverb (s0 : Rat) (reverb : ParamWord) (ls : DelayLines) : Rat :=
  if reverb = 0#32 then s0
  else s0 * (1 - numberOf reverb) + (oldSum ls : Rat) / 8 * numberOf reverb

/-- The value after the echo stage, from the word the line holds before the PROC (R150, R151, R152). -/
def afterEcho (s1 : Rat) (echo : ParamWord) (ls : DelayLines) : Rat :=
  if echo = 0#32 then s1
  else s1 * (1 - numberOf echo) + (oldWord ls .echo : Rat) * numberOf echo

/-- What a SET of a register with range `lo`..`hi` leaves in it (R210). -/
def storedBy (policy : OorPolicy) (lo hi old v : Int) : Int :=
  match policy with
  | .clamp => if v < lo then lo else if v > hi then hi else v
  | .reject => if v < lo ∨ v > hi then old else v

/-- What a reverb word becomes when the cursor passes it with `s0 = 0` (R137). -/
def combDecay (tie : Tie) (d : Int) : Int := satInt tie ((d : Rat) * (1 / 2))

/-- What an echo word becomes when the cursor passes it with `s1 = 0` (R154). -/
def echoDecay (tie : Tie) (p : Int) : Int := satInt tie ((p : Rat) * (2 / 5))

/-- The successive values of a word, `n` of them, after the start value. -/
def decaySeries (f : Int → Int) (d : Int) (n : Nat) : List Int :=
  match n with
  | 0 => []
  | m + 1 => f d :: decaySeries f (f d) m

end Sys2Proof.Claims

open Sys2Proof.Claims

/-! Steps, decoding and encoding. -/

/-- R76, R98: a step at a state whose next presented word decodes to a command is the execution of that command, with the word
taken off the list of presented words. The list itself is the model's own field (log 2). -/
def Obligations.StepExecutesDecodedCommand : Prop :=
  ∀ (s : State) (c : Presented) (rest : List Presented) (i : Instr),
    s.pending = c :: rest → decode c.port c.word = .ok i → step s = exec i { s with pending := rest }

/-- R231: a word that is no command at its port is answered with its code and data 0 at that port, and nothing else changes. -/
def Obligations.StepAnswersErrorWord : Prop :=
  ∀ (s : State) (c : Presented) (rest : List Presented) (e : CmdError),
    s.pending = c :: rest → decode c.port c.word = .error e →
    step s = .next
      (match c.port with
       | .dp => { s with pending := rest, dpOut := s.dpOut ++ [errorWord e] }
       | .cp => { s with pending := rest, cpOut := s.cpOut ++ [errorWord e] })

/-- R243: with no word presented the block holds its state. That this is one step is the model's choice (log 8). -/
def Obligations.IdleStepHoldsState : Prop :=
  ∀ s : State, s.pending = [] → step s = .next s

/-- R11, R230: no step and no command faults, hangs, blocks or refuses. -/
def Obligations.NothingFaultsOrRefuses : Prop :=
  (∀ s : State, ∃ t, step s = .next t) ∧ (∀ (i : Instr) (s : State), ∃ t, exec i s = .next t)

/-- R98, R232: which words are `ILLEGAL_OPCODE` and which are `RESERVED_FIELD` at each port; every other word is the command
of its opcode with its operand. -/
def Obligations.DecodeErrorCauses : Prop :=
  ∀ (q : PortId) (w : CommandWord),
    let op := w.extractLsb' 32 8
    let accepted := match q with
      | .dp => op = 0x01#8
      | .cp => op ∈ [0x02#8, 0x10#8, 0x11#8, 0x12#8, 0x13#8, 0x20#8, 0x21#8, 0x22#8, 0x23#8]
    let reserved := (op = 0x01#8 ∧ w.extractLsb' 16 16 ≠ 0#16) ∨
      (op ∈ [0x02#8, 0x20#8, 0x21#8, 0x22#8, 0x23#8] ∧ w.extractLsb' 0 32 ≠ 0#32)
    (decode q w = .error .illegalOpcode ↔ ¬ accepted) ∧
    (decode q w = .error .reservedField ↔ accepted ∧ reserved) ∧
    (accepted → ¬ reserved → ∃ i, decode q w = .ok i ∧ opcodeOf i = op ∧ operandOf i = w.extractLsb' 0 32)

/-- R90 to R93: every command, with every operand, is read back from its word at a port that accepts it. -/
def Obligations.DecodeAfterEncode : Prop :=
  ∀ (q : PortId) (i : Instr), WellFormed q i = true → decode q (encode i) = .ok i

/-- D6, V81: decoding is injective: a word read as a command is that command's word, and its port accepts the command. -/
def Obligations.EncodeAfterDecode : Prop :=
  ∀ (q : PortId) (w : CommandWord) (i : Instr), decode q w = .ok i → encode i = w ∧ WellFormed q i = true

/-- R93: a word at a port is the command of a table row exactly when the port is the row's and the masked word is the row's
match. -/
def Obligations.OpcodeTableDecides : Prop :=
  ∀ (q : PortId) (w : CommandWord) (row : OpcodeRow), row ∈ opcodeRows →
    ((∃ i, decode q w = .ok i ∧ i.mnemonic = row.mnemonic) ↔ (q = row.port ∧ w &&& row.mask = row.pattern))

/-- Section 8 of 30_encoding.md, and R93, R207, R208 for GETR and GETE, which its table leaves out: one word of each command and
three error words. -/
def Obligations.WorkedEncodingsDecode : Prop :=
  decode .dp 0x01000003E8 = .ok (.proc 1000) ∧ decode .dp 0x010000FFFD = .ok (.proc (BitVec.ofInt 16 (-3))) ∧
  decode .cp 0x0200000000 = .ok .reset ∧ decode .cp 0x10FFFFFA24 = .ok (.setg (BitVec.ofInt 32 (-1500))) ∧
  decode .cp 0x11000005DC = .ok (.setr 1500) ∧ decode .cp 0x12FFFFFFFF = .ok (.sete (BitVec.ofInt 32 (-1))) ∧
  decode .cp 0x13FFFFFFFE = .ok (.setp (BitVec.ofInt 32 (-2))) ∧ decode .cp 0x2000000000 = .ok .getg ∧
  decode .cp 0x2100000000 = .ok .getr ∧ decode .cp 0x2200000000 = .ok .gete ∧ decode .cp 0x2300000000 = .ok .getp ∧
  decode .cp 0x0100000000 = .error .illegalOpcode ∧ decode .dp 0x0100010000 = .error .reservedField ∧
  decode .cp 0x2000000001 = .error .reservedField

/-- R96: each port accepts its own commands and no others, and a command presented at the other port is answered
`ILLEGAL_OPCODE` and changes nothing. -/
def Obligations.WrongPortIsIllegalOpcode : Prop :=
  (∀ i : Instr, decode i.port (encode i) = .ok i) ∧
  (∀ w i, decode .dp w = .ok i → ∃ x, i = .proc x) ∧
  (∀ w i, decode .cp w = .ok i → ∀ x, i ≠ .proc x) ∧
  (∀ (s : State) (q : PortId) (i : Instr) (rest : List Presented),
    s.pending = { port := q, word := encode i } :: rest → i.port ≠ q →
    step s = .next
      (match q with
       | .dp => { s with pending := rest, dpOut := s.dpOut ++ [0x0100000000] }
       | .cp => { s with pending := rest, cpOut := s.cpOut ++ [0x0100000000] }))

/-- R96, R238: whatever word is presented, the data port cannot change a parameter or clear the lines, and the control port
cannot push a Sample through them. -/
def Obligations.PortsKeepToTheirRoles : Prop :=
  ∀ (s t : State) (c : Presented) (rest : List Presented), s.pending = c :: rest → step s = .next t →
    match c.port with
    | .dp => t.params = s.params ∧ t.cpOut = s.cpOut ∧
        (t.lines = s.lines ∨ ∃ x, exec (.proc x) { s with pending := rest } = .next t)
    | .cp => t.dpOut = s.dpOut ∧
        (t.lines = s.lines ∨ ∀ k, (t.lines.line k).cur.val = 0 ∧ ∀ a, memRead t.lines k a = 0#16)

/-- R78: every presented word gets exactly one response, at its own port, after the responses given there before, and a run of
as many steps as words are presented answers them all. -/
def Obligations.EveryWordAnsweredOnce : Prop :=
  (∀ (s : State) (c : Presented) (rest : List Presented), s.pending = c :: rest →
    ∃ t r, step s = .next t ∧ t.pending = rest ∧ t.outAt c.port = s.outAt c.port ++ [r] ∧
      ∀ q, q ≠ c.port → t.outAt q = s.outAt q) ∧
  (∀ s : State, ∃ t, runSteps s.pending.length s = .next t ∧ t.pending = [] ∧
    ∀ q, ∃ rs, t.outAt q = s.outAt q ++ rs ∧ rs.length = (atPort q s.pending).length)

/-! Reset. -/

/-- R260: the state after power-on reset. -/
def Obligations.PowerOnState : Prop :=
  (∀ k a, memRead State.reset.lines k a = 0#16) ∧ (∀ k, (State.reset.lines.line k).cur.val = 0) ∧
  State.reset.params.gain.toInt = 800 ∧ State.reset.params.reverb.toInt = 400 ∧
  State.reset.params.echo.toInt = 300 ∧ State.reset.params.pitch.toInt = 0 ∧
  State.reset.pending = [] ∧ State.reset.dpOut = [] ∧ State.reset.cpOut = []

/-- R182: RESET zeroes every word and every cursor (the power-on lines), keeps everything else, answers 0, and is idempotent; a
zero Sample after it gives 0; its error words. -/
def Obligations.ResetClearsTheLines : Prop :=
  (∀ s : State, ∃ ls : DelayLines,
    exec .reset s = .next { s with lines := ls, cpOut := s.cpOut ++ [0x0000000000] } ∧
    (∀ k a, memRead ls k a = 0#16) ∧ (∀ k, (ls.line k).cur.val = 0) ∧ ls = State.reset.lines ∧
    (∀ t, exec .reset s = .next t →
      exec .reset t = .next { t with cpOut := t.cpOut ++ [0x0000000000] } ∧
      ∃ u, exec (.proc 0#16) t = .next u ∧ u.dpOut = t.dpOut ++ [0x0000000000])) ∧
  (∀ v : BitVec 32, decode .dp (0x02#8 ++ v) = .error .illegalOpcode ∧
    decode .cp (0x02#8 ++ v) = if v = 0#32 then .ok .reset else .error .reservedField)

/-- R182: clearing a line is the loop that writes 0 to each of its words, for a canonical memory. -/
def Obligations.ResetIsTheWordLoop : Prop :=
  ∀ (ls : DelayLines), ls.wf = true → ∀ k,
    ((clearLines ls).line k).mem =
      (List.range (Config.cap k)).foldl (fun m a => Memory.write m a 0#16) (ls.line k).mem

/-- R261: RESET gives the power-on lines from any state; the parameters are then the power-on ones exactly when they were
800, 400, 300 and 0 before, which DEFAULTS, the four SETs of R113, establishes from any state. -/
def Obligations.DefaultsThenResetIsPowerOn : Prop :=
  (∀ s : State, ∃ t, exec .reset s = .next t ∧ t.lines = State.reset.lines ∧
    (t.params = State.reset.params ↔
      s.params = { gain := 800#32, reverb := 400#32, echo := 300#32, pitch := 0#32 })) ∧
  (∀ s : State, ∃ t, execAll (defaultCommands ++ [.reset]) s = .next t ∧
    t.lines = State.reset.lines ∧ t.params = State.reset.params) ∧
  defaultCommands = [.setg 800#32, .setr 400#32, .sete 300#32, .setp 0#32]

/-- R182 (b), S3: after a RESET, zero Samples give zero Samples, whatever the parameters and however long the chunk. -/
def Obligations.SilenceAfterReset : Prop :=
  ∀ (s : State) (n : Nat), ∃ t u, exec .reset s = .next t ∧
    execAll (process (List.replicate n 0#16)) t = .next u ∧
    u.dpOut = t.dpOut ++ List.replicate n 0x0000000000

/-! The Saturator. -/

/-- R166: ROUND gives the nearest integer; at an exact half, what TIE says; under `half_up` it is `floor(v + 1/2)`. -/
def Obligations.RoundTakesNearestInteger : Prop :=
  (∀ (tie : Tie) (v : Rat),
    (v - v.floor < 1 / 2 → round tie v = v.floor) ∧ (v - v.floor > 1 / 2 → round tie v = v.floor + 1) ∧
    |v - (round tie v : Rat)| ≤ 1 / 2) ∧
  (∀ v : Rat, v - v.floor = 1 / 2 →
    round .halfUp v = v.floor + 1 ∧ |(round .halfAway v : Rat)| = |v| + 1 / 2 ∧ round .halfEven v % 2 = 0) ∧
  (∀ v : Rat, round .halfUp v = (v + 1 / 2).floor)

/-- R165, R168: SAT rounds first and clamps second, its Sample holds that integer, and its arithmetic laws (a) to (h). -/
def Obligations.SaturatorLaws : Prop :=
  (∀ (tie : Tie) (v : Rat), (sat tie v).toInt = satInt tie v ∧
    satInt tie v = if round tie v < -32768 then -32768 else if round tie v > 32767 then 32767 else round tie v) ∧
  (∀ (tie : Tie) (n : Int), -32768 ≤ n → n ≤ 32767 → satInt tie (n : Rat) = n) ∧
  (∀ (tie : Tie) (v w : Rat), v ≤ w → satInt tie v ≤ satInt tie w) ∧
  (∀ (tie : Tie) (v : Rat), 65533 / 2 < v → satInt tie v = 32767) ∧
  (satInt .halfUp (65533 / 2) = 32767 ∧ satInt .halfAway (65533 / 2) = 32767 ∧ satInt .halfEven (65533 / 2) = 32766) ∧
  (∀ (tie : Tie) (v : Rat), v < -65535 / 2 → satInt tie v = -32768) ∧
  (satInt .halfUp (-65535 / 2) = -32767 ∧ satInt .halfAway (-65535 / 2) = -32768 ∧
    satInt .halfEven (-65535 / 2) = -32768) ∧
  (∀ (tie : Tie) (v : Rat), (0 ≤ v → 0 ≤ satInt tie v) ∧ (v ≤ 0 → satInt tie v ≤ 0)) ∧
  (∀ v : Rat, |v| ≤ 32767 → satInt .halfAway (-v) = -satInt .halfAway v ∧ satInt .halfEven (-v) = -satInt .halfEven v) ∧
  (∀ v : Rat, |v| ≤ 32767 → (satInt .halfUp (-v) ≠ -satInt .halfUp v ↔ v - v.floor = 1 / 2)) ∧
  (∀ tie : Tie, satInt tie 32768 = 32767 ∧ satInt tie (-32768) = -32768) ∧
  (∀ (tie : Tie) (v : Rat), -65537 / 2 ≤ v → v ≤ 65535 / 2 → |(satInt tie v : Rat) - v| ≤ 1 / 2)

/-! PROC and its stages. -/

/-- R120: the gain stage is the exact product, a multiple of 1/1000 and at most 2^46/1000 in magnitude; unity, mute and the
extreme. -/
def Obligations.GainStageIsExactProduct : Prop :=
  (∀ (x : Sample) (g : ParamWord), gainStage x g = (x.toInt : Rat) * numberOf g ∧
    gainStage x g * 1000 = ((x.toInt * g.toInt : Int) : Rat) ∧ |gainStage x g| ≤ 2 ^ 46 / 1000) ∧
  (∀ x : Sample, gainStage x 1000#32 = (x.toInt : Rat) ∧ gainStage x 0#32 = 0) ∧
  gainStage (BitVec.ofInt 16 (-32768)) (BitVec.ofInt 32 (-2147483648)) = 2 ^ 46 / 1000

/-- R180, R120, R133, R152, R165: PROC answers the saturated blend, a formula over the Sample, the parameters and the words at
the cursors before the command. -/
def Obligations.ProcOutputIsSaturatedBlend : Prop :=
  ∀ (x : Sample) (s : State), ∃ t, exec (.proc x) s = .next t ∧
    t.dpOut = s.dpOut ++ [sampleWord (satInt s.cfg.tie
      (afterEcho (afterReverb ((x.toInt : Rat) * numberOf s.params.gain) s.params.reverb s.lines) s.params.echo s.lines))]

/-- R70, R131, R150: each active line is written at its cursor with SAT of input plus fed-back old word and then advanced; every
other word, and every bypassed line, is unchanged. -/
def Obligations.ProcWritesOneWordPerActiveLine : Prop :=
  ∀ (x : Sample) (s : State), ∃ t, exec (.proc x) s = .next t ∧
    (∀ k, k ≠ .echo → s.params.reverb ≠ 0#32 →
      (t.lines.line k).cur.val = ((s.lines.line k).cur.val + 1) % Config.cap k ∧
      ∀ a, (memRead t.lines k a).toInt =
        if a = (s.lines.line k).cur then
          satInt s.cfg.tie ((x.toInt : Rat) * numberOf s.params.gain + (oldWord s.lines k : Rat) * (1 / 2))
        else (memRead s.lines k a).toInt) ∧
    (s.params.echo ≠ 0#32 →
      (t.lines.line .echo).cur.val = ((s.lines.line .echo).cur.val + 1) % 13230 ∧
      ∀ a, (memRead t.lines .echo a).toInt =
        if a = (s.lines.line .echo).cur then
          satInt s.cfg.tie (afterReverb ((x.toInt : Rat) * numberOf s.params.gain) s.params.reverb s.lines +
            (oldWord s.lines .echo : Rat) * (2 / 5))
        else (memRead s.lines .echo a).toInt) ∧
    (s.params.reverb = 0#32 → ∀ k, k ≠ .echo → t.lines.line k = s.lines.line k) ∧
    (s.params.echo = 0#32 → t.lines.line .echo = s.lines.line .echo)

/-- R180: PROC writes no parameter register, gives one response at the data port and none at the control port. -/
def Obligations.ProcFrame : Prop :=
  ∀ (x : Sample) (s : State), ∃ (ls : DelayLines) (y : Int),
    exec (.proc x) s = .next { s with lines := ls, dpOut := s.dpOut ++ [sampleWord y] } ∧ -32768 ≤ y ∧ y ≤ 32767

/-- R180 (a), S1: at unity gain with both engines bypassed, a Sample passes unchanged and no line changes. -/
def Obligations.BypassedUnityProcIsIdentity : Prop :=
  ∀ (x : Sample) (s : State), s.params.gain = 1000#32 → s.params.reverb = 0#32 → s.params.echo = 0#32 →
    exec (.proc x) s = .next { s with dpOut := s.dpOut ++ [0x000000#24 ++ x] }

/-- R132: with REVERB 0 the eight reverb lines are not read, not written and not advanced, by one PROC or by any number. -/
def Obligations.ReverbBypassFreezesBank : Prop :=
  (∀ (tie : Tie) (s0 : Rat) (ls : DelayLines), reverbStage tie s0 0#32 ls = (ls, s0)) ∧
  (∀ (xs : List Sample) (s : State), s.params.reverb = 0#32 → ∃ t, execAll (process xs) s = .next t ∧
    (∀ k, k ≠ .echo → t.lines.line k = s.lines.line k) ∧
    ∀ ls : DelayLines, ls.line .echo = s.lines.line .echo →
      ∃ u, execAll (process xs) { s with lines := ls } = .next u ∧ u.dpOut = t.dpOut ∧
        u.lines.line .echo = t.lines.line .echo)

/-- R151: with ECHO 0 the echo line is not read, not written and not advanced, whatever the reverb does. -/
def Obligations.EchoBypassFreezesLine : Prop :=
  (∀ (tie : Tie) (s1 : Rat) (ls : DelayLines), echoStage tie s1 0#32 ls = (ls, s1)) ∧
  (∀ (xs : List Sample) (s : State), s.params.echo = 0#32 → ∃ t, execAll (process xs) s = .next t ∧
    t.lines.line .echo = s.lines.line .echo ∧
    ∀ ls : DelayLines, (∀ k, k ≠ .echo → ls.line k = s.lines.line k) →
      ∃ u, execAll (process xs) { s with lines := ls } = .next u ∧ u.dpOut = t.dpOut ∧
        ∀ k, k ≠ .echo → u.lines.line k = t.lines.line k)

/-- R180 (e), R152: with ECHO 1000 the output is the word read from the echo line; the input reaches it only through the
lines. -/
def Obligations.FullEchoOutputsTheOldWord : Prop :=
  ∀ (x : Sample) (s : State), s.params.echo = 1000#32 → ∃ t, exec (.proc x) s = .next t ∧
    t.dpOut = s.dpOut ++ [sampleWord (oldWord s.lines .echo)]

/-- R133: the running sum of the reverb stage lies in -262144..262136. -/
def Obligations.ReverbSumRange : Prop :=
  ∀ (tie : Tie) (s0 : Rat) (ls : DelayLines),
    (combLoop tie s0 Config.bank ls 0).2 = oldSum ls ∧ -262144 ≤ oldSum ls ∧ oldSum ls ≤ 262136

/-- R134: the result of the reverb stage is the same for every order of the eight lines; the order of the capacities is
fixed. -/
def Obligations.ReverbLineOrderIsIrrelevant : Prop :=
  (∀ (tie : Tie) (s0 : Rat) (ls : DelayLines) (ks : List LineId), ks.Perm Config.bank →
    combLoop tie s0 ks ls 0 = combLoop tie s0 Config.bank ls 0) ∧
  Config.bank.map Config.cap = [1557, 1617, 1491, 1422, 1277, 1356, 1188, 1116]

/-- R154: with `s1 = 0`, whatever the Sample, the gain, the reverb level and the reverb lines that give it, an echo word decays to
0 in at most 13 passes, alike for every TIE and mirrored for negative words; the two series of the rule. -/
def Obligations.EchoWordsDecayToZero : Prop :=
  (∀ (x : Sample) (s : State), s.params.echo ≠ 0#32 →
    afterReverb ((x.toInt : Rat) * numberOf s.params.gain) s.params.reverb s.lines = 0 →
    ∃ t, exec (.proc x) s = .next t ∧
      (memRead t.lines .echo (s.lines.line .echo).cur).toInt = echoDecay s.cfg.tie (oldWord s.lines .echo)) ∧
  (∀ (tie tie' : Tie) (p : Int), echoDecay tie p = echoDecay tie' p) ∧
  (∀ (tie : Tie) (p : Int), -32768 ≤ p → p ≤ 32767 → (echoDecay tie)^[13] p = 0) ∧
  (∀ (tie : Tie) (p : Int), -32768 ≤ p → p ≤ 32768 → echoDecay tie (-p) = -echoDecay tie p) ∧
  (∀ tie : Tie, decaySeries (echoDecay tie) 10000 11 = [4000, 1600, 640, 256, 102, 41, 16, 6, 2, 1, 0] ∧
    decaySeries (echoDecay tie) 32767 13 = [13107, 5243, 2097, 839, 336, 134, 54, 22, 9, 4, 2, 1, 0])

/-- R137: a PROC with `s0 = 0` and the reverb active replaces the word `d` at the cursor of each reverb line by `SAT(d/2)`;
repeated, a word so replaced keeps a residue or not, by TIE: under `half_up` a positive word ends at 1 and another at 0; under
`half_away` a nonzero word ends at magnitude 1; under `half_even` every word ends at 0; the rule's two series. -/
def Obligations.ReverbWordsKeepResidue : Prop :=
  (∀ (x : Sample) (s : State), s.params.reverb ≠ 0#32 → (x.toInt : Rat) * numberOf s.params.gain = 0 →
    ∃ t, exec (.proc x) s = .next t ∧ ∀ k, k ≠ .echo →
      (memRead t.lines k (s.lines.line k).cur).toInt = combDecay s.cfg.tie (oldWord s.lines k)) ∧
  (∀ (d : Int) (n : Nat), -32768 ≤ d → d ≤ 32767 → 16 ≤ n →
    (combDecay .halfUp)^[n] d = (if 0 < d then 1 else 0) ∧
    (combDecay .halfAway)^[n] d = (if 0 < d then 1 else if d < 0 then -1 else 0) ∧
    (combDecay .halfEven)^[n] d = 0) ∧
  decaySeries (combDecay .halfUp) 100 8 = [50, 25, 13, 7, 4, 2, 1, 1] ∧
  decaySeries (combDecay .halfUp) (-100) 7 = [-50, -25, -12, -6, -3, -1, 0]

/-- R186, S7: the order of the stages matters: at some state with both engines active, PROC answers for some Sample another word
than each of the formulas with two stages swapped gives: gain after reverb, gain last, and echo before reverb. -/
def Obligations.StageOrderIsObservable : Prop :=
  ∃ (x : Sample) (s t : State) (r : ResponseWord), s.params.reverb ≠ 0#32 ∧ s.params.echo ≠ 0#32 ∧
    exec (.proc x) s = .next t ∧ t.dpOut = s.dpOut ++ [r] ∧
    let g := numberOf s.params.gain
    let reverb := fun v => afterReverb v s.params.reverb s.lines
    let echo := fun v => afterEcho v s.params.echo s.lines
    r ≠ sampleWord (satInt s.cfg.tie (echo (reverb (x.toInt : Rat) * g))) ∧
    r ≠ sampleWord (satInt s.cfg.tie (echo (reverb (x.toInt : Rat)) * g)) ∧
    r ≠ sampleWord (satInt s.cfg.tie (reverb (echo ((x.toInt : Rat) * g))))

/-- R185 (a), R112: a chunk of `n` Samples gives `n` output Samples, appended in order, and any cut of it gives the same. -/
def Obligations.ChunkGivesOneSamplePerSample : Prop :=
  (∀ (xs : List Sample) (s : State), ∃ (t : State) (ys : List Int), execAll (process xs) s = .next t ∧ ys.length = xs.length ∧
    (∀ y ∈ ys, -32768 ≤ y ∧ y ≤ 32767) ∧ t.dpOut = s.dpOut ++ ys.map sampleWord) ∧
  (∀ (xs ys : List Sample) (s : State), ∃ t u, execAll (process xs) s = .next t ∧
    execAll (process ys) t = .next u ∧ execAll (process (xs ++ ys)) s = .next u)

/-! The parameter commands. -/

/-- R201: SETG stores its operand as it is and answers it; at the data port it is `ILLEGAL_OPCODE`. -/
def Obligations.SetgStoresItsOperand : Prop :=
  ∀ v : ParamWord,
    (∀ s : State, exec (.setg v) s =
      .next { s with params := { s.params with gain := v }, cpOut := s.cpOut ++ [okWord v] }) ∧
    decode .cp (0x10#8 ++ v) = .ok (.setg v) ∧ decode .dp (0x10#8 ++ v) = .error .illegalOpcode

/-- R202: under OOR_POLICY clamp, SETR stores its operand clamped to 0..1000 and answers it, with its frame. -/
def Obligations.SetrStoresClampedLevel : Prop :=
  ∀ v : ParamWord,
    (∀ s : State, s.cfg.oor = .clamp → ∃ n : ParamWord,
      exec (.setr v) s = .next { s with params := { s.params with reverb := n }, cpOut := s.cpOut ++ [okWord n] } ∧
      n.toInt = if v.toInt < 0 then 0 else if v.toInt > 1000 then 1000 else v.toInt) ∧
    decode .cp (0x11#8 ++ v) = .ok (.setr v) ∧ decode .dp (0x11#8 ++ v) = .error .illegalOpcode

/-- R203: under OOR_POLICY clamp, SETE stores its operand clamped to 0..1000 and answers it, with its frame. -/
def Obligations.SeteStoresClampedLevel : Prop :=
  ∀ v : ParamWord,
    (∀ s : State, s.cfg.oor = .clamp → ∃ n : ParamWord,
      exec (.sete v) s = .next { s with params := { s.params with echo := n }, cpOut := s.cpOut ++ [okWord n] } ∧
      n.toInt = if v.toInt < 0 then 0 else if v.toInt > 1000 then 1000 else v.toInt) ∧
    decode .cp (0x12#8 ++ v) = .ok (.sete v) ∧ decode .dp (0x12#8 ++ v) = .error .illegalOpcode

/-- R204: under OOR_POLICY clamp, SETP stores its operand clamped to -6..6 and answers it, with its frame. -/
def Obligations.SetpStoresClampedPitch : Prop :=
  ∀ v : ParamWord,
    (∀ s : State, s.cfg.oor = .clamp → ∃ n : ParamWord,
      exec (.setp v) s = .next { s with params := { s.params with pitch := n }, cpOut := s.cpOut ++ [okWord n] } ∧
      n.toInt = if v.toInt < -6 then -6 else if v.toInt > 6 then 6 else v.toInt) ∧
    decode .cp (0x13#8 ++ v) = .ok (.setp v) ∧ decode .dp (0x13#8 ++ v) = .error .illegalOpcode

/-- R210: what each SET stores under each OOR_POLICY, with status OK and the stored value as the answer; GAIN has no bounds. That
under `reject` an operand in range is stored is the model's reading (DEDUCED, log 12); R210 says only what happens out of
range. -/
def Obligations.SetStoresByPolicy : Prop :=
  ∀ (v : ParamWord) (s : State),
    exec (.setg v) s = .next { s with params := { s.params with gain := v }, cpOut := s.cpOut ++ [okWord v] } ∧
    (∃ n : ParamWord,
      exec (.setr v) s = .next { s with params := { s.params with reverb := n }, cpOut := s.cpOut ++ [okWord n] } ∧
      n.toInt = storedBy s.cfg.oor 0 1000 s.params.reverb.toInt v.toInt) ∧
    (∃ n : ParamWord,
      exec (.sete v) s = .next { s with params := { s.params with echo := n }, cpOut := s.cpOut ++ [okWord n] } ∧
      n.toInt = storedBy s.cfg.oor 0 1000 s.params.echo.toInt v.toInt) ∧
    (∃ n : ParamWord,
      exec (.setp v) s = .next { s with params := { s.params with pitch := n }, cpOut := s.cpOut ++ [okWord n] } ∧
      n.toInt = storedBy s.cfg.oor (-6) 6 s.params.pitch.toInt v.toInt)

/-- R206 to R209: each GET answers its register and changes nothing else; with a nonzero operand it is `RESERVED_FIELD`, at the
data port `ILLEGAL_OPCODE`; and where the registers are legal the results of GETR, GETE and GETP are in range. -/
def Obligations.GettersAnswerTheirRegister : Prop :=
  (∀ s : State,
    exec .getg s = .next { s with cpOut := s.cpOut ++ [okWord s.params.gain] } ∧
    exec .getr s = .next { s with cpOut := s.cpOut ++ [okWord s.params.reverb] } ∧
    exec .gete s = .next { s with cpOut := s.cpOut ++ [okWord s.params.echo] } ∧
    exec .getp s = .next { s with cpOut := s.cpOut ++ [okWord s.params.pitch] }) ∧
  (∀ v : BitVec 32,
    (decode .cp (0x20#8 ++ v) = if v = 0#32 then .ok .getg else .error .reservedField) ∧
    (decode .cp (0x21#8 ++ v) = if v = 0#32 then .ok .getr else .error .reservedField) ∧
    (decode .cp (0x22#8 ++ v) = if v = 0#32 then .ok .gete else .error .reservedField) ∧
    (decode .cp (0x23#8 ++ v) = if v = 0#32 then .ok .getp else .error .reservedField) ∧
    decode .dp (0x20#8 ++ v) = .error .illegalOpcode ∧ decode .dp (0x21#8 ++ v) = .error .illegalOpcode ∧
    decode .dp (0x22#8 ++ v) = .error .illegalOpcode ∧ decode .dp (0x23#8 ++ v) = .error .illegalOpcode) ∧
  (∀ s : State, s.inv = true →
    0 ≤ s.params.reverb.toInt ∧ s.params.reverb.toInt ≤ 1000 ∧ 0 ≤ s.params.echo.toInt ∧ s.params.echo.toInt ≤ 1000 ∧
    -6 ≤ s.params.pitch.toInt ∧ s.params.pitch.toInt ≤ 6)

/-- R77 (a), R205: a GET answers what the last SET of its register answered, whatever other commands came between. -/
def Obligations.GetAnswersTheLastSet : Prop :=
  ∀ (v : ParamWord) (is : List Instr) (s : State),
    ((∀ w, Instr.setg w ∉ is) → ∃ t u n, exec (.setg v) s = .next t ∧ t.cpOut = s.cpOut ++ [okWord n] ∧
      execAll is t = .next u ∧ exec .getg u = .next { u with cpOut := u.cpOut ++ [okWord n] }) ∧
    ((∀ w, Instr.setr w ∉ is) → ∃ t u n, exec (.setr v) s = .next t ∧ t.cpOut = s.cpOut ++ [okWord n] ∧
      execAll is t = .next u ∧ exec .getr u = .next { u with cpOut := u.cpOut ++ [okWord n] }) ∧
    ((∀ w, Instr.sete w ∉ is) → ∃ t u n, exec (.sete v) s = .next t ∧ t.cpOut = s.cpOut ++ [okWord n] ∧
      execAll is t = .next u ∧ exec .gete u = .next { u with cpOut := u.cpOut ++ [okWord n] }) ∧
    ((∀ w, Instr.setp w ∉ is) → ∃ t u n, exec (.setp v) s = .next t ∧ t.cpOut = s.cpOut ++ [okWord n] ∧
      execAll is t = .next u ∧ exec .getp u = .next { u with cpOut := u.cpOut ++ [okWord n] })

/-! Rules about the whole machine. -/

/-- R34: each parameter register is changed by its own SET and by no other command. -/
def Obligations.ParameterChangedOnlyByItsSet : Prop :=
  ∀ (i : Instr) (s t : State), exec i s = .next t →
    ((∀ v, i ≠ .setg v) → t.params.gain = s.params.gain) ∧ ((∀ v, i ≠ .setr v) → t.params.reverb = s.params.reverb) ∧
    ((∀ v, i ≠ .sete v) → t.params.echo = s.params.echo) ∧ ((∀ v, i ≠ .setp v) → t.params.pitch = s.params.pitch)

/-- R31, R32, R66: only PROC and RESET change a delay line, and a cursor stays, moves by one modulo its capacity, or becomes
0. -/
def Obligations.LinesChangeOnlyInProcAndReset : Prop :=
  ∀ (i : Instr) (s t : State), exec i s = .next t →
    ((∀ x, i ≠ .proc x) → i ≠ .reset → t.lines = s.lines) ∧
    ∀ k, (t.lines.line k).cur = (s.lines.line k).cur ∨
      (t.lines.line k).cur.val = ((s.lines.line k).cur.val + 1) % Config.cap k ∨ (t.lines.line k).cur.val = 0

/-- R38: PITCH is stored by SETP, returned by GETP, and neither read nor changed by any other command. -/
def Obligations.PitchIsInert : Prop :=
  (∀ (i : Instr) (s : State) (p : ParamWord), (∀ v, i ≠ .setp v) → i ≠ .getp → ∃ t, exec i s = .next t ∧
    exec i { s with params := { s.params with pitch := p } } =
      .next { t with params := { t.params with pitch := p } }) ∧
  (∀ (s : State) (v : ParamWord), ∃ t n, exec (.setp v) s = .next t ∧ t.params.pitch = n ∧
    exec .getp t = .next { t with cpOut := t.cpOut ++ [okWord n] }) ∧
  State.reset.params.pitch = 0#32

/-- R77, V90: two PROCs at the data port and a SETG at the control port stand in one of three orders, and in each a PROC before the
SETG uses the old gain, a PROC after it the new one, and GAIN ends with the new value. The order is that of the model's list of
presented words (log 2). -/
def Obligations.EveryInterleavingOfTwoPorts : Prop :=
  ∀ (s : State) (x y : Sample) (v : ParamWord), s.params.reverb = 0#32 → s.params.echo = 0#32 →
    atPort .dp s.pending = [0x010000#24 ++ x, 0x010000#24 ++ y] → atPort .cp s.pending = [0x10#8 ++ v] →
    let out := fun (g : ParamWord) (z : Sample) => sampleWord (satInt s.cfg.tie ((z.toInt : Rat) * numberOf g))
    let old := s.params.gain
    let setg : Presented := { port := .cp, word := 0x10#8 ++ v }
    let first : Presented := { port := .dp, word := 0x010000#24 ++ x }
    let second : Presented := { port := .dp, word := 0x010000#24 ++ y }
    ∃ t, runSteps 3 s = .next t ∧ t.params.gain = v ∧ t.cpOut = s.cpOut ++ [okWord v] ∧
      ((s.pending = [setg, first, second] ∧ t.dpOut = s.dpOut ++ [out v x, out v y]) ∨
        (s.pending = [first, setg, second] ∧ t.dpOut = s.dpOut ++ [out old x, out v y]) ∨
        (s.pending = [first, second, setg] ∧ t.dpOut = s.dpOut ++ [out old x, out old y]))

/-- R77 (c): a control host that waits for the response of its SETG before the data host presents a PROC is sure that the PROC
uses the new gain. -/
def Obligations.WaitingForTheResponseOrdersThePorts : Prop :=
  ∀ (s : State) (x : Sample) (v : ParamWord), s.pending = [] → s.params.reverb = 0#32 → s.params.echo = 0#32 →
    ∃ t u, step (present [{ port := .cp, word := 0x10#8 ++ v }] s) = .next t ∧ t.cpOut = s.cpOut ++ [okWord v] ∧
      t.pending = [] ∧ step (present [{ port := .dp, word := 0x010000#24 ++ x }] t) = .next u ∧
      u.dpOut = t.dpOut ++ [sampleWord (satInt s.cfg.tie ((x.toInt : Rat) * numberOf v))]

/-- R66: a line advanced `n` times from cursor `c` has cursor `(c + n) mod CAP[k]` and the words it had; one advance from the last
index goes to 0. -/
def Obligations.CursorWrapsModuloCapacity : Prop :=
  ∀ (ls : DelayLines) (k : LineId) (n : Nat),
    (((fun l => dlAdvance l k)^[n] ls).line k).cur.val = ((ls.line k).cur.val + n) % Config.cap k ∧
    (∀ j a, memRead ((fun l => dlAdvance l k)^[n] ls) j a = memRead ls j a) ∧
    (∀ j, j ≠ k → ((fun l => dlAdvance l k)^[n] ls).line j = ls.line j) ∧
    ((dlAdvance ls k).line k).cur.val =
      if (ls.line k).cur.val = Config.cap k - 1 then 0 else (ls.line k).cur.val + 1

/-- R66: the word a PROC writes into an active line is the word the line has at its cursor after `CAP[k]` PROCs in which it is
active, counting that one, whatever commands come between but RESET (the host duty of R266): other SETs and GETs, and level SETs
that stop the line's clock and start it again. -/
def Obligations.DelayIsExactlyTheCapacity : Prop :=
  ∀ (k : LineId) (x : Sample) (is : List Instr) (s : State), noReset is → levelOf k s.params ≠ 0#32 →
    ∃ t, exec (.proc x) s = .next t ∧ (activeProcs k is t + 1 = Config.cap k →
      ∃ u, execAll is t = .next u ∧ (u.lines.line k).cur = (s.lines.line k).cur ∧
        dlRead u.lines k = memRead t.lines k (s.lines.line k).cur)

/-- R153: the impulse response of the echo line: with unity gain, the reverb bypassed and the echo line zero, a Sample followed
by zeros comes out at once, then every 13230 Samples, and 0 between. -/
def Obligations.EchoImpulseResponse : Prop :=
  ∀ (A : Sample) (s : State), s.params.gain = 1000#32 → s.params.reverb = 0#32 → s.params.echo ≠ 0#32 →
    (∀ a, memRead s.lines .echo a = 0#16) →
    let tie := s.cfg.tie
    let L := numberOf s.params.echo
    let q0 : Int := A.toInt
    let q1 : Int := satInt tie ((q0 : Rat) * (2 / 5))
    let q2 : Int := satInt tie ((q1 : Rat) * (2 / 5))
    let gap := List.replicate 13229 (sampleWord 0)
    ∃ t, execAll (process (A :: List.replicate 39690 0#16)) s = .next t ∧
      t.dpOut = s.dpOut ++ [sampleWord (satInt tie ((q0 : Rat) * (1 - L)))] ++ gap ++
        [sampleWord (satInt tie ((q0 : Rat) * L))] ++ gap ++ [sampleWord (satInt tie ((q1 : Rat) * L))] ++ gap ++
        [sampleWord (satInt tie ((q2 : Rat) * L))]

/-- R138: nothing observes where a cursor stands: two states whose lines hold the same words from their cursors onward give the
same responses for every future sequence of presented words, and stay so; and a line of zeros is the same at every cursor. -/
def Obligations.RotationIsUnobservable : Prop :=
  (∀ (n : Nat) (s t : State), RotationOf s t → ∃ s' t', runSteps n s = .next s' ∧ runSteps n t = .next t' ∧ RotationOf s' t') ∧
  (∀ (cap : Nat) (l m : DelayLine cap), (∀ a, l.mem.read a = 0#16) → (∀ a, m.mem.read a = 0#16) → sameFromCursor l m) ∧
  (∀ (s : State) (k : LineId), k ≠ .echo → s.params.reverb ≠ 0#32 → (∀ a, memRead s.lines k a = 0#16) →
    ∃ t, exec (.proc 0#16) s = .next t ∧ (∀ a, memRead t.lines k a = 0#16) ∧
      (t.lines.line k).cur.val = ((s.lines.line k).cur.val + 1) % Config.cap k)

/-- The invariant `State.inv` (canonical memories, legal parameters) holds after power-on reset (R34, R39, R45); the canonical
form is the model's own (log 5). -/
def Obligations.InvariantHoldsAtReset : Prop := State.reset.inv = true

/-- R34, R39: every step keeps the invariant, from every state that has it, reached or not; the canonical form of the memories
is the model's own (log 5). -/
def Obligations.StepKeepsInvariant : Prop :=
  ∀ s t : State, s.inv = true → step s = .next t → t.inv = true

/-- R46: the configuration fields are constants: no step changes them. -/
def Obligations.ConfigurationIsConstant : Prop :=
  ∀ s t : State, step s = .next t → t.cfg = s.cfg
end

