-- ==== Sys2Proof/Laws/Decode.lean ====
section
/-! SUPPORT. The fields of a word put together from an opcode and an operand, and every word as such a word (R90). -/

namespace Sys2Proof

/-- Bit `i` of opcode and operand put together (R90). -/
theorem getLsbD_word (o : BitVec 8) (v : BitVec 32) (i : Nat) :
    BitVec.getLsbD (w := 40) (o ++ v) i = if i < 32 then v.getLsbD i else o.getLsbD (i - 32) := by
  refine (BitVec.getLsbD_append (x := o) (y := v)).trans ?_
  by_cases h : i < 32 <;> simp [h]

theorem opcodeField_append (o : BitVec 8) (v : BitVec 32) : opcodeField (o ++ v) = o := by
  refine BitVec.eq_of_getLsbD_eq fun i hi => ?_
  rw [opcodeField, BitVec.getLsbD_extractLsb', getLsbD_word]
  simp [hi]

theorem operandField_append (o : BitVec 8) (v : BitVec 32) : operandField (o ++ v) = v := by
  refine BitVec.eq_of_getLsbD_eq fun i hi => ?_
  rw [operandField, BitVec.getLsbD_extractLsb', getLsbD_word]
  simp [hi]

theorem encode_opcode (i : Instr) : opcodeField (encode i) = opcodeOf i := opcodeField_append _ _

theorem encode_operand (i : Instr) : operandField (encode i) = operandOf i := operandField_append _ _

/-- The reserved bits of a PROC word are 0 (R91). -/
theorem rsvField_encode_proc (x : Sample) : rsvField (encode (.proc x)) = 0 := by
  refine BitVec.eq_of_getLsbD_eq fun i hi => ?_
  rw [rsvField, BitVec.getLsbD_extractLsb', encode, getLsbD_word, operandOf]
  simp only [BitVec.getLsbD_setWidth, BitVec.ofNat_eq_ofNat, BitVec.getLsbD_zero, hi, decide_true, Bool.true_and]
  split_ifs <;> simp [opcodeOf]
  omega

/-- The Sample of a PROC word is the operand of the PROC (R92). -/
theorem sampleField_encode_proc (x : Sample) : sampleField (encode (.proc x)) = x := by
  refine BitVec.eq_of_getLsbD_eq fun i hi => ?_
  rw [sampleField, BitVec.getLsbD_extractLsb', encode, getLsbD_word, operandOf]
  have h : i < 32 := by omega
  simp [h, hi]

/-- Every command word is its opcode field and its operand field. -/
theorem word_eq_fields (w : CommandWord) : w = opcodeField w ++ operandField w := by
  refine BitVec.eq_of_getLsbD_eq fun i hi => ?_
  rw [getLsbD_word, opcodeField, operandField, BitVec.getLsbD_extractLsb', BitVec.getLsbD_extractLsb']
  split_ifs with h
  · simp [h]
  · have h8 : i - 32 < 8 := by omega
    have h32 : 32 + (i - 32) = i := by omega
    simp [h8, h32]

/-- The operand is the reserved field of format S and the Sample field (R91). -/
theorem operand_eq_fields (w : CommandWord) : operandField w = rsvField w ++ sampleField w := by
  refine BitVec.eq_of_getLsbD_eq fun i hi => ?_
  refine Eq.trans ?_ (BitVec.getLsbD_append (x := rsvField w) (y := sampleField w)).symm
  rw [operandField, rsvField, sampleField]
  simp only [BitVec.getLsbD_extractLsb']
  by_cases h : i < 16
  · simp [h, hi]
  · have h16 : i - 16 < 16 := by omega
    have hs : 16 + (i - 16) = i := by omega
    simp [h, h16, hi, hs]

end Sys2Proof
end

