-- ==== Sys2Proof/Laws/Memory.lean ====
section
/-! SUPPORT. Delay memories: a read after a write, the canonical form, and that equal canonical memories are equal data. -/

namespace Sys2Proof.Machine

@[simp] theorem Memory.read_nil (a : Nat) : Memory.read [] a = Memory.unlisted := rfl

theorem Memory.read_cons (b : Nat) (v : Sample) (m : Memory) (a : Nat) :
    Memory.read ((b, v) :: m) a = if b = a then v else Memory.read m a := rfl

theorem Memory.wfFrom_cons {lo cap a : Nat} {v : Sample} {m : Memory} :
    Memory.wfFrom lo cap ((a, v) :: m) = true ↔
      lo ≤ a ∧ a < cap ∧ v ≠ Memory.unlisted ∧ Memory.wfFrom (a + 1) cap m = true := by
  simp [Memory.wfFrom, and_assoc]

theorem Memory.wfFrom_mono {lo lo' cap : Nat} {m : Memory} (hle : lo' ≤ lo) (h : Memory.wfFrom lo cap m = true) :
    Memory.wfFrom lo' cap m = true := by
  cases m with
  | nil => rfl
  | cons c m =>
    obtain ⟨h1, h2, h3, h4⟩ := Memory.wfFrom_cons.1 h
    exact Memory.wfFrom_cons.2 ⟨hle.trans h1, h2, h3, h4⟩

/-- Below the least listed index every word reads as the unlisted value. -/
theorem Memory.read_below {lo cap a : Nat} {m : Memory} (h : Memory.wfFrom lo cap m = true) (ha : a < lo) :
    Memory.read m a = Memory.unlisted := by
  induction m generalizing lo with
  | nil => rfl
  | cons c m ih =>
    obtain ⟨b, v⟩ := c
    obtain ⟨h1, -, -, h4⟩ := Memory.wfFrom_cons.1 h
    rw [Memory.read_cons, if_neg (by omega), ih h4 (by omega)]

theorem Memory.unlist_wfFrom {lo cap : Nat} {m : Memory} (h : Memory.wfFrom lo cap m = true) (a : Nat) :
    Memory.wfFrom lo cap (m.unlist a) = true := by
  induction m generalizing lo with
  | nil => rfl
  | cons c m ih =>
    obtain ⟨b, u⟩ := c
    obtain ⟨h1, h2, h3, h4⟩ := Memory.wfFrom_cons.1 h
    by_cases hb : b = a
    · simpa [Memory.unlist, hb] using Memory.wfFrom_mono (by omega) (ih h4)
    · simpa [Memory.unlist, hb] using Memory.wfFrom_cons.2 ⟨h1, h2, h3, ih h4⟩

theorem Memory.list_wfFrom {lo cap a : Nat} {v : Sample} {m : Memory} (h : Memory.wfFrom lo cap m = true)
    (hfree : ∀ c ∈ m, c.1 ≠ a) (hlo : lo ≤ a) (ha : a < cap) (hv : v ≠ Memory.unlisted) :
    Memory.wfFrom lo cap (m.list a v) = true := by
  induction m generalizing lo with
  | nil => exact Memory.wfFrom_cons.2 ⟨hlo, ha, hv, rfl⟩
  | cons c m ih =>
    obtain ⟨b, u⟩ := c
    obtain ⟨h1, h2, h3, h4⟩ := Memory.wfFrom_cons.1 h
    have hb : b ≠ a := hfree (b, u) (by simp)
    unfold Memory.list
    split_ifs with hab
    · exact Memory.wfFrom_cons.2 ⟨hlo, ha, hv, Memory.wfFrom_cons.2 ⟨hab, h2, h3, h4⟩⟩
    · exact Memory.wfFrom_cons.2 ⟨h1, h2, h3, ih h4 (fun c hc => hfree c (by simp [hc])) (by omega)⟩

theorem Memory.unlist_free (m : Memory) (a : Nat) : ∀ c ∈ m.unlist a, c.1 ≠ a := by
  simp [Memory.unlist]

/-- Writing keeps the canonical form. -/
theorem Memory.write_wf {cap : Nat} {m : Memory} (h : Memory.wf cap m = true) {a : Nat} (ha : a < cap) (v : Sample) :
    Memory.wf cap (m.write a v) = true := by
  unfold Memory.write
  split_ifs with hv
  · exact Memory.unlist_wfFrom h a
  · exact Memory.list_wfFrom (Memory.unlist_wfFrom h a) (Memory.unlist_free m a) (Nat.zero_le a) ha hv

theorem Memory.read_unlist (m : Memory) (a x : Nat) :
    (m.unlist a).read x = if x = a then Memory.unlisted else m.read x := by
  induction m with
  | nil => simp [Memory.unlist]
  | cons c m ih =>
    obtain ⟨b, u⟩ := c
    by_cases hb : b = a
    · have : Memory.unlist ((b, u) :: m) a = Memory.unlist m a := by simp [Memory.unlist, hb]
      rw [this, ih, Memory.read_cons]
      split_ifs <;> first | rfl | omega
    · have : Memory.unlist ((b, u) :: m) a = (b, u) :: Memory.unlist m a := by simp [Memory.unlist, hb]
      rw [this, Memory.read_cons, Memory.read_cons, ih]
      split_ifs <;> first | rfl | omega

theorem Memory.read_list (m : Memory) (a : Nat) (v : Sample) (hfree : ∀ c ∈ m, c.1 ≠ a) (x : Nat) :
    (m.list a v).read x = if x = a then v else m.read x := by
  induction m with
  | nil =>
    show (if a = x then v else Memory.unlisted) = _
    split_ifs <;> first | rfl | omega
  | cons c m ih =>
    obtain ⟨b, u⟩ := c
    have hb : b ≠ a := hfree (b, u) (by simp)
    unfold Memory.list
    by_cases hab : a < b
    · simp only [if_pos hab, Memory.read_cons a v, @eq_comm _ a x]
    · rw [if_neg hab, Memory.read_cons, Memory.read_cons, ih fun c hc => hfree c (by simp [hc])]
      split_ifs <;> first | rfl | omega

/-- A write changes the word written and no other (R63). -/
theorem Memory.read_write (m : Memory) (a : Nat) (v : Sample) (x : Nat) :
    (m.write a v).read x = if x = a then v else m.read x := by
  unfold Memory.write
  by_cases hv : v = Memory.unlisted
  · rw [if_pos hv, Memory.read_unlist, hv]
  · rw [if_neg hv, Memory.read_list _ _ _ (Memory.unlist_free m a), Memory.read_unlist]
    split_ifs <;> rfl

/-- Equal canonical memories are equal data: two of them that read alike everywhere are the same list. -/
theorem Memory.ext_of_wfFrom {lo cap : Nat} {m m' : Memory} (h : Memory.wfFrom lo cap m = true)
    (h' : Memory.wfFrom lo cap m' = true) (heq : ∀ a, m.read a = m'.read a) : m = m' := by
  induction m generalizing lo m' with
  | nil =>
    cases m' with
    | nil => rfl
    | cons c m' =>
      obtain ⟨-, -, h3, -⟩ := Memory.wfFrom_cons.1 h'
      obtain ⟨b, v⟩ := c
      exact absurd (by simpa [Memory.read_cons] using (heq b).symm) h3
  | cons c m ih =>
    obtain ⟨b, v⟩ := c
    obtain ⟨h1, h2, h3, h4⟩ := Memory.wfFrom_cons.1 h
    cases m' with
    | nil => exact absurd (by simpa [Memory.read_cons] using heq b) h3
    | cons c' m' =>
      obtain ⟨b', v'⟩ := c'
      obtain ⟨k1, k2, k3, k4⟩ := Memory.wfFrom_cons.1 h'
      have hbb : b = b' := by
        rcases lt_trichotomy b b' with hlt | he | hgt
        · have := heq b
          rw [Memory.read_cons, if_pos rfl, Memory.read_below (Memory.wfFrom_cons.2 ⟨le_refl b', k2, k3, k4⟩) hlt] at this
          exact absurd this h3
        · exact he
        · have := heq b'
          rw [Memory.read_below (Memory.wfFrom_cons.2 ⟨le_refl b, h2, h3, h4⟩) hgt, Memory.read_cons, if_pos rfl] at this
          exact absurd this.symm k3
      subst hbb
      have hv : v = v' := by simpa [Memory.read_cons] using heq b
      subst hv
      congr 1
      refine ih h4 k4 fun a => ?_
      by_cases hab : b = a
      · rw [Memory.read_below h4 (by omega), Memory.read_below k4 (by omega)]
      · simpa [Memory.read_cons, hab] using heq a

end Sys2Proof.Machine
end

