-- ==== Sys2Proof/Laws/Lines.lean ====
section
/-! SUPPORT. Delay lines: replacing one leaves the others alone (R60), what the cursor operations do, and what the comb loop and
RESET do to each line. -/

namespace Sys2Proof.Machine

@[simp] theorem line_setLine_same (ls : DelayLines) (k : LineId) (l : DelayLine (Config.cap k)) :
    (ls.setLine k l).line k = l := by cases k <;> rfl

theorem line_setLine_other (ls : DelayLines) {k k' : LineId} (h : k' ≠ k) (l : DelayLine (Config.cap k)) :
    (ls.setLine k l).line k' = ls.line k' := by
  cases k <;> cases k' <;> first | rfl | exact absurd rfl h

/-- Nine equal lines make equal line records. -/
theorem lines_ext {ls ms : DelayLines} (h : ∀ k, ls.line k = ms.line k) : ls = ms := by
  obtain ⟨⟩ := ls
  obtain ⟨⟩ := ms
  simp only [DelayLines.mk.injEq]
  exact ⟨h .rv0, h .rv1, h .rv2, h .rv3, h .rv4, h .rv5, h .rv6, h .rv7, h .echo⟩

@[simp] theorem writeAtCursor_cur {cap : Nat} (l : DelayLine cap) (v : Sample) : (l.writeAtCursor v).cur = l.cur := rfl
@[simp] theorem writeAtCursor_mem {cap : Nat} (l : DelayLine cap) (v : Sample) :
    (l.writeAtCursor v).mem = l.mem.write l.cur.val v := rfl
@[simp] theorem advance_mem {cap : Nat} (l : DelayLine cap) : l.advance.mem = l.mem := rfl
@[simp] theorem advance_cur {cap : Nat} (l : DelayLine cap) : l.advance.cur = nextCursor l.cur := rfl
@[simp] theorem nextCursor_val {cap : Nat} (c : Fin cap) : (nextCursor c).val = (c.val + 1) % cap := rfl
@[simp] theorem cleared_mem {cap : Nat} (l : DelayLine cap) : l.cleared.mem = [] := rfl
@[simp] theorem cleared_cur_val {cap : Nat} (l : DelayLine cap) : l.cleared.cur.val = 0 := rfl

@[simp] theorem clearLines_line (ls : DelayLines) (k : LineId) : (clearLines ls).line k = (ls.line k).cleared := by
  cases k <;> rfl

/-- `v` written over the word at the cursor, then the cursor moved: steps 2 and 3 of R131. -/
def DelayLine.push {cap : Nat} (l : DelayLine cap) (v : Sample) : DelayLine cap := (l.writeAtCursor v).advance

@[simp] theorem push_cur {cap : Nat} (l : DelayLine cap) (v : Sample) : (l.push v).cur = nextCursor l.cur := rfl

/-- After a push, the word at the old cursor is the one pushed and every other word is as before. -/
theorem push_read {cap : Nat} (l : DelayLine cap) (v : Sample) (a : Nat) :
    (l.push v).mem.read a = if a = l.cur.val then v else l.mem.read a := Memory.read_write ..

theorem push_wf {cap : Nat} {l : DelayLine cap} (h : Memory.wf cap l.mem = true) (v : Sample) :
    Memory.wf cap (l.push v).mem = true := Memory.write_wf h l.cur.isLt v

/-- `DLWrite` and then `DLAdvance` of line `k` push onto that line and leave the others alone. -/
theorem dlAdvance_dlWrite (ls : DelayLines) (k : LineId) (v : Sample) :
    dlAdvance (dlWrite ls k v) k = ls.setLine k ((ls.line k).push v) := by cases k <;> rfl

/-- What the comb-filter step pushes onto a line whose word at the cursor is `d` (R131). -/
def combFeedback (tie : Tie) (s0 : Rat) (d : Sample) : Sample := sat tie (s0 + sampleRat d * Config.fbReverb)

/-- What the echo stage pushes onto its line when the word at the cursor is `p` (R150). -/
def echoFeedback (tie : Tie) (s1 : Rat) (p : Sample) : Sample := sat tie (s1 + sampleRat p * Config.fbEcho)

theorem combStep_eq (tie : Tie) (s0 : Rat) (k : LineId) (ls : DelayLines) :
    combStep tie s0 k ls = ls.setLine k ((ls.line k).push (combFeedback tie s0 (dlRead ls k))) :=
  dlAdvance_dlWrite ..

theorem echoStep_eq (tie : Tie) (s1 : Rat) (ls : DelayLines) :
    echoStep tie s1 ls = ls.setLine .echo ((ls.line .echo).push (echoFeedback tie s1 (dlRead ls .echo))) :=
  dlAdvance_dlWrite ..

theorem combStep_line_other (tie : Tie) (s0 : Rat) (ls : DelayLines) {k k' : LineId} (h : k' ≠ k) :
    (combStep tie s0 k ls).line k' = ls.line k' := by rw [combStep_eq, line_setLine_other _ h]

/-- The comb loop leaves a line that is not in its list alone. -/
theorem combLoop_line_not_mem (tie : Tie) (s0 : Rat) {ks : List LineId} (ls : DelayLines) (acc : Int) {k : LineId}
    (h : k ∉ ks) : (combLoop tie s0 ks ls acc).1.line k = ls.line k := by
  induction ks generalizing ls acc with
  | nil => rfl
  | cons j ks ih =>
    have hne : k ≠ j := fun hk => h (by simp [hk])
    rw [combLoop, ih _ _ fun hk => h (List.mem_cons_of_mem j hk), combStep_line_other _ _ _ hne]

/-- The comb loop pushes once onto each line of its list, from the word that line held at its cursor. -/
theorem combLoop_line_mem (tie : Tie) (s0 : Rat) {ks : List LineId} (hnd : ks.Nodup) (ls : DelayLines) (acc : Int)
    {k : LineId} (h : k ∈ ks) :
    (combLoop tie s0 ks ls acc).1.line k = (ls.line k).push (combFeedback tie s0 (dlRead ls k)) := by
  induction ks generalizing ls acc with
  | nil => cases h
  | cons j ks ih =>
    obtain ⟨hj, hnd⟩ := List.nodup_cons.1 hnd
    rw [combLoop]
    by_cases hk : k = j
    · subst hk
      rw [combLoop_line_not_mem _ _ _ _ hj, combStep_eq, line_setLine_same]
    · rw [ih hnd _ _ ((List.mem_cons.1 h).resolve_left hk)]
      simp only [dlRead, combStep_line_other _ _ _ hk]

/-- The comb loop's sum is that of the words the lines held before it (R131 (a)). -/
theorem combLoop_sum (tie : Tie) (s0 : Rat) {ks : List LineId} (hnd : ks.Nodup) (ls : DelayLines) (acc : Int) :
    (combLoop tie s0 ks ls acc).2 = acc + (ks.map fun k => (dlRead ls k).toInt).sum := by
  induction ks generalizing ls acc with
  | nil => simp [combLoop]
  | cons j ks ih =>
    obtain ⟨hj, hnd⟩ := List.nodup_cons.1 hnd
    rw [combLoop, ih hnd, List.map_cons, List.sum_cons, add_assoc]
    congr 3
    refine List.map_congr_left fun k hk => ?_
    have hne : k ≠ j := fun h => hj (h ▸ hk)
    simp only [dlRead, combStep_line_other _ _ _ hne]

theorem bank_nodup : Config.bank.Nodup := by decide

theorem mem_bank_iff {k : LineId} : k ∈ Config.bank ↔ k ≠ .echo := by cases k <;> decide

/-- The invariant's memory half, line by line. -/
theorem lines_wf_iff {ls : DelayLines} : ls.wf = true ↔ ∀ k, Memory.wf (Config.cap k) (ls.line k).mem = true := by
  unfold DelayLines.wf
  rw [List.all_eq_true]
  exact ⟨fun h k => h k (by cases k <;> decide), fun h k _ => h k⟩

/-- A word read after a write: the word written, or the one before (R62, R63); the lines do not alias (R60). -/
theorem memRead_memWrite_same (ls : DelayLines) (k : LineId) (a b : Fin (Config.cap k)) (v : Sample) :
    memRead (memWrite ls k a v) k b = if b = a then v else memRead ls k b := by
  simp only [memRead, memWrite, line_setLine_same, Memory.read_write, Fin.ext_iff]

theorem memRead_memWrite_other (ls : DelayLines) {k j : LineId} (h : j ≠ k) (a : Fin (Config.cap k)) (b : Fin (Config.cap j))
    (v : Sample) : memRead (memWrite ls k a v) j b = memRead ls j b := by
  simp only [memRead, memWrite, line_setLine_other _ h]

/-- `DLRead(k)` is `MemRead(k, CUR[k])` (R64). -/
theorem dlRead_eq_memRead (ls : DelayLines) (k : LineId) : dlRead ls k = memRead ls k (ls.line k).cur := rfl

/-- `DLWrite(k, v)` is `MemWrite(k, CUR[k], v)` (R65). -/
theorem dlWrite_eq_memWrite (ls : DelayLines) (k : LineId) (v : Sample) :
    dlWrite ls k v = memWrite ls k (ls.line k).cur v := rfl

/-- Replacing a line by one in canonical form keeps the canonical form. -/
theorem setLine_wf {ls : DelayLines} (h : ls.wf = true) {k : LineId} {l : DelayLine (Config.cap k)}
    (hl : Memory.wf (Config.cap k) l.mem = true) : (ls.setLine k l).wf = true := by
  rw [lines_wf_iff] at h ⊢
  intro j
  by_cases hj : j = k
  · subst hj
    rw [line_setLine_same]
    exact hl
  · rw [line_setLine_other _ hj]
    exact h j

theorem memWrite_wf {ls : DelayLines} (h : ls.wf = true) (k : LineId) (a : Fin (Config.cap k)) (v : Sample) :
    (memWrite ls k a v).wf = true := setLine_wf h (Memory.write_wf (lines_wf_iff.1 h k) a.isLt v)

theorem dlWrite_wf {ls : DelayLines} (h : ls.wf = true) (k : LineId) (v : Sample) : (dlWrite ls k v).wf = true :=
  memWrite_wf h k _ v

theorem dlAdvance_wf {ls : DelayLines} (h : ls.wf = true) (k : LineId) : (dlAdvance ls k).wf = true :=
  setLine_wf h (lines_wf_iff.1 h k)

theorem clearLines_wf (ls : DelayLines) : (clearLines ls).wf = true :=
  lines_wf_iff.2 fun k => by rw [clearLines_line, cleared_mem]; rfl

theorem zero_lines_wf : DelayLines.zero.wf = true := by decide

end Sys2Proof.Machine
end

