-- ==== Sys2Proof/Laws/Saturator.lean ====
section
/-! SUPPORT. The Saturator's result is always a Sample, and the 16-bit word holds exactly that integer. -/

namespace Sys2Proof.Machine

theorem satInt_ge (tie : Tie) (v : Rat) : -32768 ≤ satInt tie v := by
  unfold satInt Config.smin Config.smax
  dsimp only
  split_ifs <;> omega

theorem satInt_le (tie : Tie) (v : Rat) : satInt tie v ≤ 32767 := by
  unfold satInt Config.smin Config.smax
  dsimp only
  split_ifs <;> omega

/-- `enc_16` and `sint_16` are inverse on the Sample range (R8). -/
theorem enc16_toInt {n : Int} (h1 : -32768 ≤ n) (h2 : n ≤ 32767) : (enc16 n).toInt = n := by
  rw [enc16, BitVec.toInt_ofInt]
  exact Int.bmod_eq_of_le (by omega) (by omega)

/-- `enc_32` and `sint_32` are inverse on the 32-bit signed range (R8). -/
theorem enc32_toInt {n : Int} (h1 : -2147483648 ≤ n) (h2 : n ≤ 2147483647) : (enc32 n).toInt = n := by
  rw [enc32, BitVec.toInt_ofInt]
  exact Int.bmod_eq_of_le (by omega) (by omega)

/-- The word SAT gives holds the clamped integer, with no wraparound. -/
@[simp] theorem sat_toInt (tie : Tie) (v : Rat) : (sat tie v).toInt = satInt tie v :=
  enc16_toInt (satInt_ge tie v) (satInt_le tie v)

theorem sample_toInt_ge (x : Sample) : -32768 ≤ x.toInt := by have := BitVec.le_toInt x; simpa using this

theorem sample_toInt_le (x : Sample) : x.toInt ≤ 32767 := by have := BitVec.toInt_lt (x := x); simp at this; omega

theorem param_toInt_ge (n : ParamWord) : -2147483648 ≤ n.toInt := by have := BitVec.le_toInt n; simpa using this

theorem param_toInt_le (n : ParamWord) : n.toInt ≤ 2147483647 := by have := BitVec.toInt_lt (x := n); simp at this; omega

end Sys2Proof.Machine
end

