-- ==== Sys2Proof/Laws/State.lean ====
section
/-! SUPPORT. One lemma per field and update of State, so that no later proof unfolds a record update. -/

namespace Sys2Proof.Machine

variable (s : State) (q : PortId) (r : ResponseWord) (d : BitVec 32) (e : CmdError)

@[simp] theorem giveResponse_lines : (giveResponse q r s).lines = s.lines := by cases q <;> rfl
@[simp] theorem giveResponse_params : (giveResponse q r s).params = s.params := by cases q <;> rfl
@[simp] theorem giveResponse_cfg : (giveResponse q r s).cfg = s.cfg := by cases q <;> rfl
@[simp] theorem giveResponse_pending : (giveResponse q r s).pending = s.pending := by cases q <;> rfl
@[simp] theorem giveResponse_dp_dpOut : (giveResponse .dp r s).dpOut = s.dpOut ++ [r] := rfl
@[simp] theorem giveResponse_dp_cpOut : (giveResponse .dp r s).cpOut = s.cpOut := rfl
@[simp] theorem giveResponse_cp_dpOut : (giveResponse .cp r s).dpOut = s.dpOut := rfl
@[simp] theorem giveResponse_cp_cpOut : (giveResponse .cp r s).cpOut = s.cpOut ++ [r] := rfl

@[simp] theorem respond_lines : (respond q d s).lines = s.lines := giveResponse_lines ..
@[simp] theorem respond_params : (respond q d s).params = s.params := giveResponse_params ..
@[simp] theorem respond_cfg : (respond q d s).cfg = s.cfg := giveResponse_cfg ..
@[simp] theorem respond_pending : (respond q d s).pending = s.pending := giveResponse_pending ..
@[simp] theorem respond_dp_dpOut : (respond .dp d s).dpOut = s.dpOut ++ [okResponse d] := rfl
@[simp] theorem respond_dp_cpOut : (respond .dp d s).cpOut = s.cpOut := rfl
@[simp] theorem respond_cp_dpOut : (respond .cp d s).dpOut = s.dpOut := rfl
@[simp] theorem respond_cp_cpOut : (respond .cp d s).cpOut = s.cpOut ++ [okResponse d] := rfl

@[simp] theorem raiseCmdError_lines : (raiseCmdError q e s).lines = s.lines := giveResponse_lines ..
@[simp] theorem raiseCmdError_params : (raiseCmdError q e s).params = s.params := giveResponse_params ..
@[simp] theorem raiseCmdError_cfg : (raiseCmdError q e s).cfg = s.cfg := giveResponse_cfg ..
@[simp] theorem raiseCmdError_pending : (raiseCmdError q e s).pending = s.pending := giveResponse_pending ..
@[simp] theorem raiseCmdError_dp_dpOut : (raiseCmdError .dp e s).dpOut = s.dpOut ++ [errorResponse e] := rfl
@[simp] theorem raiseCmdError_dp_cpOut : (raiseCmdError .dp e s).cpOut = s.cpOut := rfl
@[simp] theorem raiseCmdError_cp_dpOut : (raiseCmdError .cp e s).dpOut = s.dpOut := rfl
@[simp] theorem raiseCmdError_cp_cpOut : (raiseCmdError .cp e s).cpOut = s.cpOut ++ [errorResponse e] := rfl

@[simp] theorem outAt_dp : s.outAt .dp = s.dpOut := rfl
@[simp] theorem outAt_cp : s.outAt .cp = s.cpOut := rfl

theorem giveResponse_outAt_same : (giveResponse q r s).outAt q = s.outAt q ++ [r] := by cases q <;> rfl

theorem giveResponse_outAt_other {q q' : PortId} (h : q' ≠ q) : (giveResponse q r s).outAt q' = s.outAt q' := by
  cases q <;> cases q' <;> first | rfl | exact absurd rfl h

@[simp] theorem setParam_lines (p : ParamId) (v : ParamWord) : (setParam p v s).lines = s.lines := rfl
@[simp] theorem setParam_cfg (p : ParamId) (v : ParamWord) : (setParam p v s).cfg = s.cfg := rfl
@[simp] theorem setParam_pending (p : ParamId) (v : ParamWord) : (setParam p v s).pending = s.pending := rfl
@[simp] theorem setParam_dpOut (p : ParamId) (v : ParamWord) : (setParam p v s).dpOut = s.dpOut := rfl
@[simp] theorem setParam_params (p : ParamId) (v : ParamWord) :
    (setParam p v s).params = writeParam s.params p (accepted s.cfg.oor p (readParam s.params p) v) := rfl
@[simp] theorem setParam_cpOut (p : ParamId) (v : ParamWord) :
    (setParam p v s).cpOut = s.cpOut ++ [okResponse (accepted s.cfg.oor p (readParam s.params p) v)] := rfl

@[simp] theorem getParam_lines (p : ParamId) : (getParam p s).lines = s.lines := rfl
@[simp] theorem getParam_params (p : ParamId) : (getParam p s).params = s.params := rfl
@[simp] theorem getParam_cfg (p : ParamId) : (getParam p s).cfg = s.cfg := rfl
@[simp] theorem getParam_pending (p : ParamId) : (getParam p s).pending = s.pending := rfl
@[simp] theorem getParam_dpOut (p : ParamId) : (getParam p s).dpOut = s.dpOut := rfl
@[simp] theorem getParam_cpOut (p : ParamId) :
    (getParam p s).cpOut = s.cpOut ++ [okResponse (readParam s.params p)] := rfl

/-- A register holds what was written to it, and the other registers are untouched. -/
theorem readParam_writeParam (ps : EffectParams) (p p' : ParamId) (n : ParamWord) :
    readParam (writeParam ps p n) p' = if p' = p then n else readParam ps p' := by
  cases p <;> cases p' <;> rfl

@[simp] theorem fetch_nil (h : s.pending = []) : fetch s = none := by simp [fetch, h]

theorem fetch_cons {s : State} {c : Presented} {rest : List Presented} (h : s.pending = c :: rest) :
    fetch s = some (c, { s with pending := rest }) := by simp [fetch, h]

@[simp] theorem present_lines (l : List Presented) : (present l s).lines = s.lines := rfl
@[simp] theorem present_params (l : List Presented) : (present l s).params = s.params := rfl
@[simp] theorem present_cfg (l : List Presented) : (present l s).cfg = s.cfg := rfl
@[simp] theorem present_pending (l : List Presented) : (present l s).pending = s.pending ++ l := rfl
@[simp] theorem present_dpOut (l : List Presented) : (present l s).dpOut = s.dpOut := rfl
@[simp] theorem present_cpOut (l : List Presented) : (present l s).cpOut = s.cpOut := rfl

@[simp] theorem withFetchWord_lines (n w : Nat) : (s.withFetchWord n w).lines = s.lines := rfl
@[simp] theorem withFetchWord_params (n w : Nat) : (s.withFetchWord n w).params = s.params := rfl
@[simp] theorem withFetchWord_cfg (n w : Nat) : (s.withFetchWord n w).cfg = s.cfg := rfl
@[simp] theorem withFetchWord_dpOut (n w : Nat) : (s.withFetchWord n w).dpOut = s.dpOut := rfl
@[simp] theorem withFetchWord_cpOut (n w : Nat) : (s.withFetchWord n w).cpOut = s.cpOut := rfl
@[simp] theorem withFetchWord_pending (n w : Nat) :
    (s.withFetchWord n w).pending = { port := impliedPort (tableWord n w), word := tableWord n w } :: s.pending := rfl

end Sys2Proof.Machine
end

