-- ==== Sys2Proof/Laws/Exec.lean ====
section
/-! SUPPORT. What one command and one step can do, said once. -/

namespace Sys2Proof.Machine

/-- The datapath is the exact one, the only value `NUM` has. -/
theorem datapath_eq (cfg : Config) (x : Sample) (ps : EffectParams) (ls : DelayLines) :
    datapath cfg x ps ls = procExact cfg.tie x ps ls := by
  obtain ⟨⟨⟩, _, _⟩ := cfg
  rfl

theorem exec_proc (x : Sample) (s : State) :
    exec (.proc x) s = .next (respond .dp (sampleData (procExact s.cfg.tie x s.params s.lines).2)
      { s with lines := (procExact s.cfg.tie x s.params s.lines).1 }) := by
  simp only [exec, execProc, datapath_eq]

theorem exec_reset (s : State) : exec .reset s = .next (respond .cp 0 { s with lines := clearLines s.lines }) := rfl

/-- The reverb stage on line `k`: a bypassed or foreign line is as before, an active one is pushed onto once. -/
theorem reverbStage_line (tie : Tie) (s0 : Rat) (n : ParamWord) (ls : DelayLines) (k : LineId) :
    (reverbStage tie s0 n ls).1.line k =
      if n = 0#32 ∨ k = .echo then ls.line k else (ls.line k).push (combFeedback tie s0 (dlRead ls k)) := by
  unfold reverbStage
  by_cases hn : n = 0#32
  · simp [hn]
  · by_cases hk : k = .echo
    · simp only [hn, hk, or_true, if_true, if_false]
      subst hk
      exact combLoop_line_not_mem _ _ _ _ (k := .echo) (by decide)
    · simp only [hn, hk, or_self, if_false]
      exact combLoop_line_mem _ _ bank_nodup _ _ (mem_bank_iff.2 hk)

/-- The value of the reverb stage: the input when bypassed, else the blend with the mean of the old words (R133). -/
theorem reverbStage_value (tie : Tie) (s0 : Rat) (n : ParamWord) (ls : DelayLines) :
    (reverbStage tie s0 n ls).2 =
      if n = 0#32 then s0 else reverbBlend s0 (Config.bank.map fun k => (dlRead ls k).toInt).sum (milli n) := by
  unfold reverbStage
  split_ifs with hn
  · rfl
  · simp only [combLoop_sum _ _ bank_nodup, zero_add]

/-- The echo stage on line `k`. -/
theorem echoStage_line (tie : Tie) (s1 : Rat) (n : ParamWord) (ls : DelayLines) (k : LineId) :
    (echoStage tie s1 n ls).1.line k =
      if n ≠ 0#32 ∧ k = .echo then (ls.line k).push (echoFeedback tie s1 (dlRead ls k)) else ls.line k := by
  unfold echoStage
  by_cases hn : n = 0#32
  · simp [hn]
  · by_cases hk : k = .echo
    · subst hk
      simp [hn, echoStep_eq]
    · simp only [hn, hk, and_false, if_false]
      rw [echoStep_eq, line_setLine_other _ hk]

/-- The value of the echo stage (R152). -/
theorem echoStage_value (tie : Tie) (s1 : Rat) (n : ParamWord) (ls : DelayLines) :
    (echoStage tie s1 n ls).2 =
      if n = 0#32 then s1 else s1 * (1 - milli n) + sampleRat (dlRead ls .echo) * milli n := by
  unfold echoStage
  split_ifs <;> rfl

/-- The reverb stage leaves the word the echo stage reads alone. -/
theorem reverbStage_dlRead_echo (tie : Tie) (s0 : Rat) (n : ParamWord) (ls : DelayLines) :
    dlRead (reverbStage tie s0 n ls).1 .echo = dlRead ls .echo := by
  simp [dlRead, reverbStage_line]

/-- One PROC on line `k`: every active line is pushed onto once, from the words it held before. -/
theorem procExact_line (tie : Tie) (x : Sample) (ps : EffectParams) (ls : DelayLines) (k : LineId) :
    (procExact tie x ps ls).1.line k =
      if k = .echo then
        if ps.echo = 0#32 then ls.line k
        else (ls.line k).push
          (echoFeedback tie (reverbStage tie (gainStage x ps.gain) ps.reverb ls).2 (dlRead ls k))
      else if ps.reverb = 0#32 then ls.line k
      else (ls.line k).push (combFeedback tie (gainStage x ps.gain) (dlRead ls k)) := by
  simp only [procExact, readParam, echoStage_line, dlRead, reverbStage_line]
  split_ifs <;> simp_all

@[simp] theorem levelOf_echo (ps : EffectParams) : levelOf .echo ps = ps.echo := rfl

theorem levelOf_of_ne_echo {k : LineId} (h : k ≠ .echo) (ps : EffectParams) : levelOf k ps = ps.reverb := if_neg h

/-- One PROC pushes exactly one word onto an active line. -/
theorem procExact_line_active (tie : Tie) (x : Sample) {ps : EffectParams} (ls : DelayLines) {k : LineId}
    (h : levelOf k ps ≠ 0#32) : ∃ v, (procExact tie x ps ls).1.line k = (ls.line k).push v := by
  rw [procExact_line]
  by_cases hk : k = .echo
  · subst hk
    rw [if_pos rfl, if_neg (by simpa using h)]
    exact ⟨_, rfl⟩
  · rw [levelOf_of_ne_echo hk] at h
    rw [if_neg hk, if_neg h]
    exact ⟨_, rfl⟩

/-- One PROC leaves a bypassed line whole. -/
theorem procExact_line_bypassed (tie : Tie) (x : Sample) {ps : EffectParams} (ls : DelayLines) {k : LineId}
    (h : levelOf k ps = 0#32) : (procExact tie x ps ls).1.line k = ls.line k := by
  rw [procExact_line]
  by_cases hk : k = .echo
  · subst hk
    rw [if_pos rfl, if_pos (by simpa using h)]
  · rw [levelOf_of_ne_echo hk] at h
    rw [if_neg hk, if_pos h]

/-- The output of one PROC: SAT of the echo stage's value over the reverb stage's value (R180). -/
theorem procExact_output (tie : Tie) (x : Sample) (ps : EffectParams) (ls : DelayLines) :
    (procExact tie x ps ls).2 = sat tie (echoStage tie (reverbStage tie (gainStage x ps.gain) ps.reverb ls).2 ps.echo ls).2 := by
  simp only [procExact, readParam, echoStage_value, reverbStage_dlRead_echo]

/-- Every command answers (R230). -/
theorem exec_next (i : Instr) (s : State) : ∃ t, exec i s = .next t := by cases i <;> exact ⟨_, rfl⟩

/-- A command that answers leaves the configuration and the words still presented alone. -/
theorem exec_cfg_pending {i : Instr} {s t : State} (h : exec i s = .next t) : t.cfg = s.cfg ∧ t.pending = s.pending := by
  cases i <;> cases h <;> exact ⟨rfl, rfl⟩

/-- What one step can do: nothing is presented, or the first word is a command and is executed, or it is none and is answered
with its error. -/
theorem step_cases {s t : State} (h : step s = .next t) :
    (s.pending = [] ∧ t = s) ∨
    (∃ c rest i, s.pending = c :: rest ∧ decode c.port c.word = .ok i ∧ exec i { s with pending := rest } = .next t) ∨
    (∃ c rest e, s.pending = c :: rest ∧ decode c.port c.word = .error e ∧
      t = raiseCmdError c.port e { s with pending := rest }) := by
  unfold step at h
  cases hp : s.pending with
  | nil => rw [fetch_nil s hp] at h; cases h; exact .inl ⟨rfl, rfl⟩
  | cons c rest =>
    rw [fetch_cons hp] at h
    cases hd : decode c.port c.word with
    | ok i => simp only [hd] at h; exact .inr (.inl ⟨c, rest, i, rfl, hd, h⟩)
    | error e => simp only [hd] at h; cases h; exact .inr (.inr ⟨c, rest, e, rfl, hd, rfl⟩)

@[simp] theorem execAll_nil (s : State) : execAll [] s = .next s := rfl

theorem execAll_cons_next {i : Instr} {is : List Instr} {s t : State} (h : exec i s = .next t) :
    execAll (i :: is) s = execAll is t := by simp only [execAll, h]

@[simp] theorem activeProcs_nil (k : LineId) (s : State) : activeProcs k [] s = 0 := rfl

theorem activeProcs_cons_next {k : LineId} {i : Instr} {is : List Instr} {s t : State} (h : exec i s = .next t) :
    activeProcs k (i :: is) s = (activeAt k i s).toNat + activeProcs k is t := by simp only [activeProcs, h]

@[simp] theorem activeAt_proc (k : LineId) (x : Sample) (s : State) :
    activeAt k (.proc x) s = decide (levelOf k s.params ≠ 0#32) := rfl

/-- PROCs in a row are all active on a line whose level is not 0. -/
theorem activeProcs_replicate_proc {k : LineId} (x : Sample) (n : Nat) {s : State} (h : levelOf k s.params ≠ 0#32) :
    activeProcs k (List.replicate n (.proc x)) s = n := by
  induction n generalizing s with
  | zero => rfl
  | succ n ih =>
    rw [List.replicate_succ, activeProcs_cons_next (exec_proc x s), ih (by simpa using h), activeAt_proc, decide_eq_true h]
    simp [Nat.add_comm]

end Sys2Proof.Machine
end

