-- ==== Sys2Proof/Laws/Invariant.lean ====
section
/-! SUPPORT. The invariant in parts, what a SET may leave in a register, and the response word of a PROC. -/

namespace Sys2Proof.Machine

/-- A SET leaves a legal value in a register that held one, under either policy (R210). -/
theorem accepted_inRange (o : OorPolicy) (p : ParamId) (old v : ParamWord) (h : inRange p old = true) :
    inRange p (accepted o p old v) = true := by
  have h1 := param_toInt_ge v
  have h2 := param_toInt_le v
  cases p <;> cases o <;> simp only [inRange, Config.paramRange, accepted, clampInt] at h ⊢
  all_goals split_ifs
  all_goals first | exact h | skip
  all_goals simp only [Bool.and_eq_true, decide_eq_true_eq] at h ⊢
  all_goals first | (rw [enc32_toInt (by omega) (by omega)]; omega) | omega

/-- The invariant: every memory canonical, every register legal. -/
theorem inv_iff {s : State} : s.inv = true ↔ (∀ k, Memory.wf (Config.cap k) (s.lines.line k).mem = true) ∧
    ∀ p, inRange p (readParam s.params p) = true := by
  simp only [State.inv, Bool.and_eq_true, lines_wf_iff, EffectParams.legal]
  constructor
  · rintro ⟨h, ⟨⟨h1, h2⟩, h3⟩, h4⟩
    exact ⟨h, fun p => by cases p <;> assumption⟩
  · rintro ⟨h, hp⟩
    exact ⟨h, ⟨⟨hp .gain, hp .reverb⟩, hp .echo⟩, hp .pitch⟩

/-- The response of a PROC carries the Sample in bits 15..0 and zeros above it (R94). -/
theorem okResponse_sampleData (y : Sample) : okResponse (sampleData y) = (0x000000#24 ++ y : BitVec 40) := by
  refine BitVec.eq_of_getLsbD_eq fun i hi => ?_
  rw [okResponse, responseWord]
  refine (BitVec.getLsbD_append (x := statusOk) (y := sampleData y)).trans ?_
  refine Eq.trans ?_ (BitVec.getLsbD_append (x := 0#24) (y := y)).symm
  simp only [sampleData, statusOk, BitVec.getLsbD_setWidth]
  by_cases h : i < 16
  · have : i < 32 := by omega
    simp [h, this]
  · by_cases h2 : i < 32
    · simp [h, h2]; exact BitVec.getLsbD_of_ge _ _ (by omega)
    · simp [h, h2]

end Sys2Proof.Machine
end

