-- ==== Sys2Proof/Laws/PerInstr.lean ====
section
/-! SUPPORT. Statements about every instruction as syntax, one lemma per constructor. -/

namespace Sys2Proof

/-- The word of a command holds its opcode in bits 39..32 and its operand in bits 31..0 (R90), and its opcode byte is one its
own port accepts (R96). -/
def Laws.EncodedFields.Statement (i : Instr) : Prop :=
  opcodeField (encode i) = opcodeOf i ∧ operandField (encode i) = operandOf i ∧ accepts i.port (opcodeOf i) = true

theorem encodedFields_of_accepts {i : Instr} (h : accepts i.port (opcodeOf i) = true) : Laws.EncodedFields.Statement i :=
  ⟨opcodeField_append _ _, operandField_append _ _, h⟩

theorem Laws.EncodedFields.proc (x : Sample) : Laws.EncodedFields.Statement (.proc x) := encodedFields_of_accepts rfl
theorem Laws.EncodedFields.reset : Laws.EncodedFields.Statement .reset := encodedFields_of_accepts rfl
theorem Laws.EncodedFields.setg (v : ParamWord) : Laws.EncodedFields.Statement (.setg v) := encodedFields_of_accepts rfl
theorem Laws.EncodedFields.setr (v : ParamWord) : Laws.EncodedFields.Statement (.setr v) := encodedFields_of_accepts rfl
theorem Laws.EncodedFields.sete (v : ParamWord) : Laws.EncodedFields.Statement (.sete v) := encodedFields_of_accepts rfl
theorem Laws.EncodedFields.setp (v : ParamWord) : Laws.EncodedFields.Statement (.setp v) := encodedFields_of_accepts rfl
theorem Laws.EncodedFields.getg : Laws.EncodedFields.Statement .getg := encodedFields_of_accepts rfl
theorem Laws.EncodedFields.getr : Laws.EncodedFields.Statement .getr := encodedFields_of_accepts rfl
theorem Laws.EncodedFields.gete : Laws.EncodedFields.Statement .gete := encodedFields_of_accepts rfl
theorem Laws.EncodedFields.getp : Laws.EncodedFields.Statement .getp := encodedFields_of_accepts rfl

end Sys2Proof
end

