-- ==== Sys2Proof/Tests/Slice0.lean ====
section
/-! SUPPORT. Tests whose expected values are the spec's own vectors (95_test_vectors.md, 30_encoding.md section 8), and a witness
of the hypotheses of each statement that has some. -/

namespace Sys2Proof.Tests

-- The theorems of this file are elaborated one after another: a thread for each takes more memory than a check gives.
set_option Elab.async false

open Sys2Proof Sys2Proof.Machine Sys2Proof.Claims

/-- Whether an outcome is a next state with a property. -/
def answers (o : Host.Outcome State Fault Refusal) (p : State → Bool) : Bool :=
  match o with
  | .next t => p t
  | .fault _ => false
  | .refused _ => false

/-- The power-on state with other levels. -/
def withLevels (g r e : Int) : State :=
  { State.reset with params := { gain := BitVec.ofInt 32 g, reverb := BitVec.ofInt 32 r, echo := BitVec.ofInt 32 e, pitch := 0 } }

/-- A state with words presented. -/
def presenting (l : List Presented) : State := { State.reset with pending := l }

/-! Well-formedness: the port check accepts and refuses. -/

theorem test_wellFormed_dp_accepts_proc : WellFormed .dp (.proc 5) = true := by decide
theorem test_wellFormed_dp_refuses_control :
    WellFormed .dp .reset = false ∧ WellFormed .dp (.setg 0) = false ∧ WellFormed .dp (.setr 0) = false ∧
    WellFormed .dp (.sete 0) = false ∧ WellFormed .dp (.setp 0) = false ∧ WellFormed .dp .getg = false ∧
    WellFormed .dp .getr = false ∧ WellFormed .dp .gete = false ∧ WellFormed .dp .getp = false := by decide
theorem test_wellFormed_cp_refuses_proc : WellFormed .cp (.proc 5) = false ∧ WellFormed .cp .reset = true := by decide

/-! Decoding: words written out bit by bit from R91 and R93, for every constructor. -/

theorem test_decode_proc : decode .dp 0b0000000100000000000000001111111111111101 = .ok (.proc 0xFFFD) := by decide
theorem test_decode_reset : decode .cp 0b0000001000000000000000000000000000000000 = .ok .reset := by decide
theorem test_decode_setg : decode .cp 0b0001000011111111111111111111101000100100 = .ok (.setg 0xFFFFFA24) := by decide
theorem test_decode_setr : decode .cp 0b0001000100000000000000000000010111011100 = .ok (.setr 1500) := by decide
theorem test_decode_sete : decode .cp 0b0001001000000000000000000000000100101100 = .ok (.sete 300) := by decide
theorem test_decode_setp : decode .cp 0b0001001111111111111111111111111111111110 = .ok (.setp 0xFFFFFFFE) := by decide
theorem test_decode_getg : decode .cp 0b0010000000000000000000000000000000000000 = .ok .getg := by decide
theorem test_decode_getr : decode .cp 0b0010000100000000000000000000000000000000 = .ok .getr := by decide
theorem test_decode_gete : decode .cp 0b0010001000000000000000000000000000000000 = .ok .gete := by decide
theorem test_decode_getp : decode .cp 0b0010001100000000000000000000000000000000 = .ok .getp := by decide

/-- V80: words that are no command at their port. -/
theorem test_decode_errors :
    decode .dp 0x0000000000 = .error .illegalOpcode ∧ decode .cp 0xFFFFFFFFFF = .error .illegalOpcode ∧
    decode .cp 0x1400000000 = .error .illegalOpcode ∧ decode .dp 0x10000003E8 = .error .illegalOpcode ∧
    decode .dp 0x0180000000 = .error .reservedField ∧ decode .dp 0x01FFFFFFFD = .error .reservedField ∧
    decode .cp 0x2180000000 = .error .reservedField ∧ decode .cp 0x0100010000 = .error .illegalOpcode ∧
    decode .dp 0x0200000001 = .error .illegalOpcode := by decide

/-- Encoding a few commands gives the words of 30_encoding.md section 8. -/
theorem test_encode_words :
    encode (.proc 1000) = 0x01000003E8 ∧ encode (.proc 0xFFFD) = 0x010000FFFD ∧ encode (.setg 800) = 0x1000000320 ∧
    encode .getp = 0x2300000000 := by decide

/-- The match words of spec/opcode_table.json decode to their rows' commands. -/
theorem test_table_words :
    [0x0100000000, 0x0200000000, 0x1000000000, 0x1100000000, 0x1200000000, 0x1300000000, 0x2000000000, 0x2100000000,
      0x2200000000, 0x2300000000].map (decodeTableWord 40) =
    [some (.proc 0), some .reset, some (.setg 0), some (.setr 0), some (.sete 0), some (.setp 0), some .getg, some .getr,
      some .gete, some .getp] := by decide

/-! The listing syntax. -/

/-- Lines of 30_encoding.md section 8, with a result, a comment, a port and a raw word. -/
theorem test_assemble_lines :
    assemble "PROC -3\nSETG 0.8 -> 800\nSETG -1.5 ; inverts\nSETP -2\nCP: PROC 0\nDP: 0x0100010000\nGETP".toList = some
      [⟨.dp, 0x010000FFFD⟩, ⟨.cp, 0x1000000320⟩, ⟨.cp, 0x10FFFFFA24⟩, ⟨.cp, 0x13FFFFFFFE⟩, ⟨.cp, 0x0100000000⟩,
        ⟨.dp, 0x0100010000⟩, ⟨.cp, 0x2300000000⟩] := by decide

/-- R112, R113, and a line that is none: a Sample out of range. -/
theorem test_assemble_pseudo :
    assemble "PROCESS 100*2, -1\nPROCESS\nDEFAULTS".toList = some
      [⟨.dp, 0x0100000064⟩, ⟨.dp, 0x0100000064⟩, ⟨.dp, 0x010000FFFF⟩, ⟨.cp, 0x1000000320⟩, ⟨.cp, 0x1100000190⟩,
        ⟨.cp, 0x120000012C⟩, ⟨.cp, 0x1300000000⟩] ∧
    assemble "PROC 32768".toList = none ∧ assemble "SETG 0.8001".toList = none := by decide

/-- Spaces around an item of PROCESS are allowed, inside one not (the model's choice, log 16). -/
theorem test_assemble_process_spaces :
    assemble "PROCESS  1 ,2".toList = assemble "PROCESS 1, 2".toList ∧ assemble "PROCESS 1 2".toList = none ∧
    assemble "PROCESS - 3".toList = none := by decide

/-- R6: the capacity of the echo line in the table, beside the rate and the delay it comes from. -/
theorem test_echo_capacity : Config.cap .echo = 13230 ∧ Config.fs * Config.echoMs / 1000 = 13230 := by decide

/-! The Saturator. -/

/-- V1. -/
theorem test_sat_clamps :
    satInt .halfUp (414792 / 100) = 4148 ∧ satInt .halfEven (65535 / 2) = 32767 ∧ satInt .halfUp 65534 = 32767 ∧
    satInt .halfAway (-65537 / 2) = -32768 ∧ satInt .halfUp (-65536) = -32768 := by decide +kernel

/-- V2 and the table of R166. -/
theorem test_round_ties :
    [(1 / 2 : Rat), -1 / 2, 3 / 2, -3 / 2, 5 / 2, -5 / 2].map (round .halfUp) = [1, 0, 2, -1, 3, -2] ∧
    [(1 / 2 : Rat), -1 / 2, 3 / 2, -3 / 2, 5 / 2, -5 / 2].map (round .halfAway) = [1, -1, 2, -2, 3, -3] ∧
    [(1 / 2 : Rat), -1 / 2, 3 / 2, -3 / 2, 5 / 2, -5 / 2].map (round .halfEven) = [0, 0, 2, -2, 2, -2] := by decide +kernel

/-! One step of each command. -/

/-- V30: `PROC 1000` from power-on, presented as a word: the response, the words written and the cursors. -/
theorem test_proc_from_power_on :
    answers (step (State.reset.withFetchWord 40 0x01000003E8)) (fun t =>
      t.dpOut == [0x0000000150] && t.cpOut == [] && t.lines.line0 == { mem := [(0, 800)], cur := ⟨1, by decide⟩ } &&
      t.lines.line7 == { mem := [(0, 800)], cur := ⟨1, by decide⟩ } &&
      t.lines.line8 == { mem := [(0, 480)], cur := ⟨1, by decide⟩ }) = true := by decide +kernel

/-- V20 and V41 in one state: old contents, feedback writes with a tie, the cursor's wrap. -/
theorem test_proc_old_contents_and_wrap :
    answers (exec (.proc 3)
      { withLevels 1000 0 1000 with lines := { DelayLines.zero with
          line8 := { mem := [(13229, BitVec.ofInt 16 (-7))], cur := ⟨13229, by decide⟩ } } }) (fun t =>
      t.dpOut == [0x000000FFF9] && t.lines.line8 == { mem := [], cur := ⟨0, by decide⟩ }) = true ∧
    answers (exec (.proc 10)
      { withLevels 1000 500 0 with lines := { DelayLines.zero with
          line0 := { mem := [(0, 100)], cur := ⟨0, by decide⟩ }, line1 := { mem := [(0, BitVec.ofInt 16 (-100))], cur := ⟨0, by decide⟩ },
          line2 := { mem := [(0, 1)], cur := ⟨0, by decide⟩ }, line3 := { mem := [(0, BitVec.ofInt 16 (-1))], cur := ⟨0, by decide⟩ },
          line4 := { mem := [(0, 32767)], cur := ⟨0, by decide⟩ }, line5 := { mem := [(0, BitVec.ofInt 16 (-32768))], cur := ⟨0, by decide⟩ },
          line6 := { mem := [(0, 3)], cur := ⟨0, by decide⟩ } } }) (fun t =>
      t.dpOut == [5] && t.lines.line2.mem == [(0, 11)] && t.lines.line3.mem == [(0, 10)] && t.lines.line4.mem == [(0, 16394)] &&
      t.lines.line5.mem == [(0, BitVec.ofInt 16 (-16374))] && t.lines.line7.mem == [(0, 10)]) = true := by decide +kernel

/-- V60: RESET clears a line with content and keeps the parameters. -/
theorem test_reset_clears :
    answers (exec .reset
      { withLevels (-1500) 0 7 with lines := { DelayLines.zero with line3 := { mem := [(2, 9)], cur := ⟨3, by decide⟩ } } }) (fun t =>
      t.lines == DelayLines.zero && t.params == (withLevels (-1500) 0 7).params && t.cpOut == [0]) = true := by decide

/-- V70. -/
theorem test_setg_unclamped :
    answers (exec (.setg 0x80000000) State.reset) (fun t => t.params.gain == 0x80000000 && t.cpOut == [0x0080000000]) = true := by
  decide

/-- V71. -/
theorem test_setr_clamps :
    answers (exec (.setr 1500) State.reset) (fun t => t.params.reverb == 1000 && t.cpOut == [0x00000003E8]) = true ∧
    answers (exec (.setr 0xFFFFFFFF) State.reset) (fun t => t.params.reverb == 0 && t.cpOut == [0]) = true := by decide

/-- V71. -/
theorem test_sete_clamps :
    answers (exec (.sete 1001) State.reset) (fun t => t.params.echo == 1000) = true ∧
    answers (exec (.sete 0x80000000) State.reset) (fun t => t.params.echo == 0 && t.params.reverb == 400) = true := by decide

/-- V71. -/
theorem test_setp_clamps :
    answers (exec (.setp 7) State.reset) (fun t => t.params.pitch == 6 && t.cpOut == [0x0000000006]) = true ∧
    answers (exec (.setp 0xFFFFFF9C) State.reset) (fun t => t.params.pitch == 0xFFFFFFFA && t.cpOut == [0x00FFFFFFFA]) = true := by
  decide

/-- R210: the alternative OOR_POLICY keeps the register. -/
theorem test_setr_rejects :
    answers (exec (.setr 1500) { State.reset with cfg := { Config.taken with oor := .reject } })
      (fun t => t.params.reverb == 400 && t.cpOut == [0x0000000190]) = true := by decide

/-- V72. -/
theorem test_getters :
    answers (exec .getg State.reset) (fun t => t.cpOut == [0x0000000320]) = true ∧
    answers (exec .getr State.reset) (fun t => t.cpOut == [0x0000000190]) = true ∧
    answers (exec .gete State.reset) (fun t => t.cpOut == [0x000000012C]) = true ∧
    answers (exec .getp State.reset) (fun t => t.cpOut == [0]) = true := by decide

/-- P4: two error words in one run, answered at their port, and no other effect. -/
theorem test_error_words_leave_no_trace :
    answers (runSteps 2 (presenting [⟨.cp, 0x01000003E8⟩, ⟨.dp, 0x01FFFFFC18⟩])) (fun t =>
      t == { State.reset with dpOut := [0x0200000000], cpOut := [0x0100000000] }) = true := by decide

/-! Witnesses: a state and operands that meet the hypotheses of each statement that has some. -/

theorem witness_StepExecutesDecodedCommand :
    (presenting [⟨.dp, 0x0100000005⟩]).pending = ⟨.dp, 0x0100000005⟩ :: [] ∧ decode .dp 0x0100000005 = .ok (.proc 5) := by decide

theorem witness_StepAnswersErrorWord :
    (presenting [⟨.dp, 0⟩]).pending = ⟨.dp, 0⟩ :: [] ∧ decode .dp 0 = .error .illegalOpcode ∧
    decode .dp 0x0100010000 = .error .reservedField ∧ decode .cp 0 = .error .illegalOpcode ∧
    decode .cp 0x0200000001 = .error .reservedField := by decide

theorem witness_IdleStepHoldsState : State.reset.pending = [] := rfl

/-- The third clause's accepted and unreserved words: the greatest and the least operands of format S and a format Z word. -/
theorem witness_DecodeErrorCauses :
    (0x010000FFFF#40).extractLsb' 32 8 = 0x01#8 ∧ (0x010000FFFF#40).extractLsb' 16 16 = 0#16 ∧
    (0x2300000000#40).extractLsb' 32 8 = 0x23#8 ∧ (0x2300000000#40).extractLsb' 0 32 = 0#32 := by decide

theorem witness_DecodeAfterEncode : WellFormed .dp (.proc 0x8000) = true ∧ WellFormed .cp (.setg 0xFFFFFFFF) = true := by decide

theorem witness_EncodeAfterDecode : decode .cp 0x13FFFFFFFE = .ok (.setp 0xFFFFFFFE) := by decide

theorem witness_OpcodeTableDecides :
    { mnemonic := "PROC", port := .dp, mask := 0xFFFFFF0000, pattern := 0x0100000000 } ∈ opcodeRows := by decide

theorem witness_WrongPortIsIllegalOpcode :
    decode .dp 0x0100000001 = .ok (.proc 1) ∧ decode .cp 0x0200000000 = .ok .reset ∧
    (presenting [⟨.dp, encode .reset⟩]).pending = ⟨.dp, encode .reset⟩ :: [] ∧ Instr.reset.port ≠ .dp ∧
    (presenting [⟨.cp, encode (.proc 1)⟩]).pending = ⟨.cp, encode (.proc 1)⟩ :: [] ∧ (Instr.proc 1).port ≠ .cp := by decide

theorem witness_PortsKeepToTheirRoles :
    answers (step (presenting [⟨.dp, 0x0100000001⟩])) (fun t => t.params == State.reset.params && t.cpOut == []) = true ∧
    answers (step (presenting [⟨.cp, 0x0200000000⟩])) (fun t => t.dpOut == []) = true := by decide +kernel

theorem witness_EveryWordAnsweredOnce :
    (presenting [⟨.cp, 0x2000000000⟩, ⟨.dp, 0⟩]).pending = ⟨.cp, 0x2000000000⟩ :: [⟨.dp, 0⟩] := rfl

theorem witness_ResetClearsTheLines : answers (exec .reset State.reset) (fun _ => true) = true := by decide

theorem witness_ResetIsTheWordLoop :
    ({ DelayLines.zero with line7 := { mem := [(0, 1), (1115, 2)], cur := ⟨1115, by decide⟩ } }).wf = true := by decide

/-- A value of each clause, next to the half on either side and on it. -/
theorem witness_RoundTakesNearestInteger :
    (49 / 100 : Rat) - (49 / 100 : Rat).floor < 1 / 2 ∧ (51 / 100 : Rat) - (51 / 100 : Rat).floor > 1 / 2 ∧
    (-5 / 2 : Rat) - (-5 / 2 : Rat).floor = 1 / 2 := by decide +kernel

/-- The edges of each clause with hypotheses. -/
theorem witness_SaturatorLaws :
    (-32768 : Int) ≤ -32768 ∧ (32767 : Int) ≤ 32767 ∧ (0 : Rat) ≤ 1 / 2 ∧ (65533 / 2 : Rat) < 32767 ∧
    (-32768 : Rat) < -65535 / 2 ∧ |(-32767 : Rat)| ≤ 32767 ∧ (-65537 / 2 : Rat) ≤ -65537 / 2 ∧
    (65535 / 2 : Rat) ≤ 65535 / 2 := by norm_num

theorem witness_ProcWritesOneWordPerActiveLine :
    State.reset.params.reverb ≠ 0#32 ∧ State.reset.params.echo ≠ 0#32 ∧ (withLevels 1000 0 0).params.reverb = 0#32 ∧
    (withLevels 1000 0 0).params.echo = 0#32 ∧ LineId.rv7 ≠ .echo := by decide

theorem witness_BypassedUnityProcIsIdentity :
    (withLevels 1000 0 0).params.gain = 1000#32 ∧ (withLevels 1000 0 0).params.reverb = 0#32 ∧
    (withLevels 1000 0 0).params.echo = 0#32 := by decide

theorem witness_ReverbBypassFreezesBank :
    (withLevels 1000 0 500).params.reverb = 0#32 ∧
    ({ DelayLines.zero with line0 := { mem := [(4, 1)], cur := ⟨2, by decide⟩ } }).line .echo =
      (withLevels 1000 0 500).lines.line .echo := by decide

theorem witness_EchoBypassFreezesLine :
    (withLevels 1000 500 0).params.echo = 0#32 ∧
    ∀ k, k ≠ .echo → ({ DelayLines.zero with line8 := { mem := [(4, 1)], cur := ⟨2, by decide⟩ } }).line k =
      (withLevels 1000 500 0).lines.line k := by
  refine ⟨by decide, fun k hk => ?_⟩
  cases k <;> first | rfl | exact absurd rfl hk

theorem witness_FullEchoOutputsTheOldWord : (withLevels 800 400 1000).params.echo = 1000#32 := by decide

theorem witness_ReverbLineOrderIsIrrelevant : Config.bank.reverse.Perm Config.bank := List.reverse_perm _

theorem witness_EchoWordsDecayToZero :
    (withLevels 5 400 300).params.echo ≠ 0#32 ∧
    afterReverb (((0 : Sample).toInt : Rat) * numberOf (withLevels 5 400 300).params.gain) (withLevels 5 400 300).params.reverb
      (withLevels 5 400 300).lines = 0 ∧
    (-32768 : Int) ≤ -32768 ∧ (32767 : Int) ≤ 32767 ∧ (32768 : Int) ≤ 32768 := by decide +kernel

/-- `s0 = 0` by the Sample and by the gain. -/
theorem witness_ReverbWordsKeepResidue :
    (withLevels 800 400 0).params.reverb ≠ 0#32 ∧
    (((0 : Sample).toInt : Rat) * numberOf (withLevels 800 400 0).params.gain = 0) ∧
    (((5 : Sample).toInt : Rat) * numberOf (withLevels 0 400 0).params.gain = 0) ∧
    (-32768 : Int) ≤ -32768 ∧ (32767 : Int) ≤ 32767 ∧ 16 ≤ 16 := by decide +kernel

theorem witness_SetCommandsUnderClamp : State.reset.cfg.oor = .clamp := rfl

theorem witness_GettersAnswerTheirRegister : (withLevels 0 1000 0).inv = true := by decide

theorem witness_GetAnswersTheLastSet :
    (∀ w, Instr.setg w ∉ [.getg, .reset, .setr 5]) ∧ (∀ w, Instr.setr w ∉ [.setg 5]) ∧
    (∀ w, Instr.sete w ∉ [.proc 5]) ∧ (∀ w, Instr.setp w ∉ [.getp]) := by simp

theorem witness_ParameterChangedOnlyByItsSet :
    answers (exec (.proc 5) State.reset) (fun _ => true) = true ∧ (∀ v, Instr.proc 5 ≠ .setg v) ∧
    (∀ v, Instr.proc 5 ≠ .setr v) ∧ (∀ v, Instr.proc 5 ≠ .sete v) ∧ (∀ v, Instr.proc 5 ≠ .setp v) := by
  refine ⟨by decide +kernel, ?_⟩
  simp

theorem witness_LinesChangeOnlyInProcAndReset :
    answers (exec (.setr 5) State.reset) (fun _ => true) = true ∧ (∀ x, Instr.setr 5 ≠ .proc x) ∧ Instr.setr 5 ≠ .reset := by
  refine ⟨by decide, ?_⟩
  simp

theorem witness_PitchIsInert : (∀ v, Instr.proc 5 ≠ .setp v) ∧ Instr.proc 5 ≠ .getp := by simp

/-- V90, with the SETG between the two PROCs; the other two orders are the same words. -/
theorem witness_EveryInterleavingOfTwoPorts :
    (withLevels 800 0 0).params.reverb = 0#32 ∧ (withLevels 800 0 0).params.echo = 0#32 ∧
    atPort .dp [⟨.dp, 0x0100000064⟩, ⟨.cp, 0x10000007D0⟩, ⟨.dp, 0x0100000064⟩] =
      [0x010000#24 ++ 100#16, 0x010000#24 ++ 100#16] ∧
    atPort .cp [⟨.dp, 0x0100000064⟩, ⟨.cp, 0x10000007D0⟩, ⟨.dp, 0x0100000064⟩] = [0x10#8 ++ 2000#32] := by decide

theorem witness_WaitingForTheResponseOrdersThePorts :
    (withLevels 800 0 0).pending = [] ∧ (withLevels 800 0 0).params.reverb = 0#32 ∧
    (withLevels 800 0 0).params.echo = 0#32 := by decide

/-- Between the PROC and its return to the output, line 7 is turned off for one PROC and on again. -/
theorem witness_DelayIsExactlyTheCapacity :
    ∃ (is : List Instr) (t : State), noReset is ∧ levelOf .rv7 State.reset.params ≠ 0#32 ∧
      exec (.proc 5) State.reset = .next t ∧ activeProcs .rv7 is t + 1 = Config.cap .rv7 := by
  refine ⟨.setr 0 :: .proc 7 :: .setr 400 :: List.replicate 1115 (.proc 0), _, ?_, by decide, exec_proc _ _, ?_⟩
  · simp only [noReset, List.mem_cons, List.mem_replicate, reduceCtorEq, and_false, or_self, not_false_eq_true]
  · rw [activeProcs_cons_next rfl, activeProcs_cons_next (exec_proc _ _), activeProcs_cons_next rfl,
      activeProcs_replicate_proc]
    · decide
    · decide

theorem witness_EchoImpulseResponse :
    (withLevels 1000 0 500).params.gain = 1000#32 ∧ (withLevels 1000 0 500).params.reverb = 0#32 ∧
    (withLevels 1000 0 500).params.echo ≠ 0#32 ∧ ∀ a, memRead (withLevels 1000 0 500).lines .echo a = 0#16 :=
  ⟨by decide, by decide, by decide, fun _ => rfl⟩

/-- The power-on state and the same with the echo cursor at its last index; and a zero line at its last index. -/
theorem witness_RotationIsUnobservable :
    RotationOf State.reset { State.reset with lines := { DelayLines.zero with line8 := { mem := [], cur := ⟨13229, by decide⟩ } } } ∧
    LineId.rv0 ≠ .echo ∧ State.reset.params.reverb ≠ 0#32 ∧ ∀ a, memRead State.reset.lines .rv0 a = 0#16 := by
  refine ⟨⟨fun k j => ?_, rfl, rfl, rfl, rfl, rfl⟩, by decide, by decide, fun _ => rfl⟩
  cases k <;> rfl

theorem witness_StepKeepsInvariant :
    State.reset.inv = true ∧ answers (step (presenting [⟨.cp, 0x0200000000⟩])) (fun t => t.inv) = true := by decide

theorem witness_ConfigurationIsConstant : answers (step State.reset) (fun t => t == State.reset) = true := by decide

end Sys2Proof.Tests
end

section
/-! What one step is in each of its three cases, and that it always answers (R11, R230). -/

namespace Sys2Proof.Machine

/-- R243: nothing is presented. -/
theorem step_of_pending_nil {s : State} (h : s.pending = []) : step s = .next s := by
  simp only [step, fetch_nil s h]

/-- R76, R98: the next presented word is a command. -/
theorem step_of_decode_ok {s : State} {c : Presented} {rest : List Presented} {i : Instr} (h : s.pending = c :: rest)
    (hd : decode c.port c.word = .ok i) : step s = exec i { s with pending := rest } := by
  simp only [step, fetch_cons h, hd]

/-- R231: the next presented word is no command at its port. -/
theorem step_of_decode_error {s : State} {c : Presented} {rest : List Presented} {e : CmdError} (h : s.pending = c :: rest)
    (hd : decode c.port c.word = .error e) : step s = .next (raiseCmdError c.port e { s with pending := rest }) := by
  simp only [step, fetch_cons h, hd]

/-- R11: every step answers a next state. Only the execution of a command could do otherwise, and `exec_next` excludes it. -/
theorem step_next (s : State) : ∃ t, step s = .next t := by
  cases hp : s.pending with
  | nil => exact ⟨s, step_of_pending_nil hp⟩
  | cons c rest =>
    cases hd : decode c.port c.word with
    | ok i => rw [step_of_decode_ok hp hd]; exact exec_next i _
    | error e => exact ⟨_, step_of_decode_error hp hd⟩

/-- Settles O4: every step answers (`step_next`) and so does every command (`exec_next`). -/
theorem nothingFaultsOrRefuses : Obligations.NothingFaultsOrRefuses := ⟨step_next, exec_next⟩

end Sys2Proof.Machine
end

section
/-! What one command can do, in four cases: PROC, RESET, a SET of a register, a GET of a register; and from that what it does to
each delay line and to each register, and that every step keeps the invariant (R34, R38, R39, R46, R66). -/

namespace Sys2Proof.Machine

/-- The SET of each register (R201 to R204). -/
def setInstr : ParamId → ParamWord → Instr
  | .gain => .setg
  | .reverb => .setr
  | .echo => .sete
  | .pitch => .setp

/-- The GET of each register (R206 to R209). -/
def getInstr : ParamId → Instr
  | .gain => .getg
  | .reverb => .getr
  | .echo => .gete
  | .pitch => .getp

/-- R200. -/
theorem exec_setInstr (p : ParamId) (v : ParamWord) (s : State) : exec (setInstr p v) s = .next (setParam p v s) := by
  cases p <;> rfl

/-- R205. -/
theorem exec_getInstr (p : ParamId) (s : State) : exec (getInstr p) s = .next (getParam p s) := by
  cases p <;> rfl

/-- Every command is a PROC, RESET, the SET of a register or the GET of a register (R93). -/
theorem instr_cases (i : Instr) :
    (∃ x, i = .proc x) ∨ i = .reset ∨ (∃ p v, i = setInstr p v) ∨ ∃ p, i = getInstr p := by
  cases i with
  | proc x => exact .inl ⟨x, rfl⟩
  | reset => exact .inr (.inl rfl)
  | setg v => exact .inr (.inr (.inl ⟨.gain, v, rfl⟩))
  | setr v => exact .inr (.inr (.inl ⟨.reverb, v, rfl⟩))
  | sete v => exact .inr (.inr (.inl ⟨.echo, v, rfl⟩))
  | setp v => exact .inr (.inr (.inl ⟨.pitch, v, rfl⟩))
  | getg => exact .inr (.inr (.inr ⟨.gain, rfl⟩))
  | getr => exact .inr (.inr (.inr ⟨.reverb, rfl⟩))
  | gete => exact .inr (.inr (.inr ⟨.echo, rfl⟩))
  | getp => exact .inr (.inr (.inr ⟨.pitch, rfl⟩))

/-- What one command can do: the whole next state in each of the four cases. -/
theorem exec_cases {i : Instr} {s t : State} (h : exec i s = .next t) :
    (∃ x, i = .proc x ∧ t = respond .dp (sampleData (procExact s.cfg.tie x s.params s.lines).2)
      { s with lines := (procExact s.cfg.tie x s.params s.lines).1 }) ∨
    (i = .reset ∧ t = respond .cp 0 { s with lines := clearLines s.lines }) ∨
    (∃ p v, i = setInstr p v ∧ t = setParam p v s) ∨
    ∃ p, i = getInstr p ∧ t = getParam p s := by
  obtain ⟨x, rfl⟩ | rfl | ⟨p, v, rfl⟩ | ⟨p, rfl⟩ := instr_cases i
  · rw [exec_proc] at h; cases h; exact .inl ⟨x, rfl, rfl⟩
  · rw [exec_reset] at h; cases h; exact .inr (.inl ⟨rfl, rfl⟩)
  · rw [exec_setInstr] at h; cases h; exact .inr (.inr (.inl ⟨p, v, rfl, rfl⟩))
  · rw [exec_getInstr] at h; cases h; exact .inr (.inr (.inr ⟨p, rfl, rfl⟩))

/-! The registers. -/

/-- A command leaves the registers alone, or is the SET of one and writes the accepted value to it (R200). -/
theorem exec_params {i : Instr} {s t : State} (h : exec i s = .next t) :
    t.params = s.params ∨ ∃ p v, i = setInstr p v ∧
      t.params = writeParam s.params p (accepted s.cfg.oor p (readParam s.params p) v) := by
  obtain ⟨x, -, rfl⟩ | ⟨-, rfl⟩ | ⟨p, v, hi, rfl⟩ | ⟨p, -, rfl⟩ := exec_cases h
  · exact .inl (respond_params ..)
  · exact .inl (respond_params ..)
  · exact .inr ⟨p, v, hi, setParam_params ..⟩
  · exact .inl (getParam_params ..)

/-- R34: a command that is not the SET of register `p` leaves it as it is. -/
theorem exec_readParam {i : Instr} {s t : State} {p : ParamId} (h : exec i s = .next t) (hi : ∀ v, i ≠ setInstr p v) :
    readParam t.params p = readParam s.params p := by
  obtain ht | ⟨q, v, hq, ht⟩ := exec_params h
  · rw [ht]
  · have hpq : p ≠ q := fun e => hi v (e ▸ hq)
    rw [ht, readParam_writeParam, if_neg hpq]

/-- R210: a command leaves legal values in the registers. -/
theorem exec_inRange {i : Instr} {s t : State} (h : exec i s = .next t) (hs : ∀ p, inRange p (readParam s.params p) = true)
    (p : ParamId) : inRange p (readParam t.params p) = true := by
  obtain ht | ⟨q, v, -, ht⟩ := exec_params h
  · rw [ht]; exact hs p
  · rw [ht, readParam_writeParam]
    split_ifs with hp
    · subst hp; exact accepted_inRange _ _ _ _ (hs p)
    · exact hs p

/-! The delay lines. -/

/-- R66, R182: a command leaves a line whole, pushes one word onto it, or clears it. -/
theorem exec_line {i : Instr} {s t : State} (h : exec i s = .next t) (k : LineId) :
    t.lines.line k = s.lines.line k ∨ (∃ v, t.lines.line k = (s.lines.line k).push v) ∨
      t.lines.line k = (s.lines.line k).cleared := by
  obtain ⟨x, -, rfl⟩ | ⟨-, rfl⟩ | ⟨p, v, -, rfl⟩ | ⟨p, -, rfl⟩ := exec_cases h
  · rw [respond_lines]
    by_cases hk : levelOf k s.params = 0#32
    · exact .inl (procExact_line_bypassed _ _ _ hk)
    · exact .inr (.inl (procExact_line_active _ _ _ hk))
  · exact .inr (.inr (by rw [respond_lines, clearLines_line]))
  · exact .inl rfl
  · exact .inl rfl

/-- R31: a command other than PROC and RESET leaves the delay lines whole. -/
theorem exec_lines {i : Instr} {s t : State} (h : exec i s = .next t) (hp : ∀ x, i ≠ .proc x) (hr : i ≠ .reset) :
    t.lines = s.lines := by
  obtain ⟨x, hi, -⟩ | ⟨hi, -⟩ | ⟨p, v, -, rfl⟩ | ⟨p, -, rfl⟩ := exec_cases h
  · exact absurd hi (hp x)
  · exact absurd hi hr
  · rfl
  · rfl

/-- R32, R66: a command leaves a cursor, moves it by one modulo the capacity, or sets it to 0. -/
theorem exec_cur {i : Instr} {s t : State} (h : exec i s = .next t) (k : LineId) :
    (t.lines.line k).cur = (s.lines.line k).cur ∨
      (t.lines.line k).cur.val = ((s.lines.line k).cur.val + 1) % Config.cap k ∨ (t.lines.line k).cur.val = 0 := by
  obtain hl | ⟨v, hl⟩ | hl := exec_line h k
  · exact .inl (by rw [hl])
  · exact .inr (.inl (by rw [hl, push_cur, nextCursor_val]))
  · exact .inr (.inr (by rw [hl, cleared_cur_val]))

/-- R39: a command keeps the canonical form of each memory. -/
theorem exec_mem_wf {i : Instr} {s t : State} (h : exec i s = .next t) {k : LineId}
    (hk : Memory.wf (Config.cap k) (s.lines.line k).mem = true) : Memory.wf (Config.cap k) (t.lines.line k).mem = true := by
  obtain hl | ⟨v, hl⟩ | hl := exec_line h k
  · rwa [hl]
  · rw [hl]; exact push_wf hk v
  · rw [hl, cleared_mem]; rfl

/-! The invariant and the configuration. -/

/-- A command keeps the invariant. -/
theorem exec_inv {i : Instr} {s t : State} (h : exec i s = .next t) (hs : s.inv = true) : t.inv = true := by
  obtain ⟨hmem, hpar⟩ := inv_iff.1 hs
  exact inv_iff.2 ⟨fun k => exec_mem_wf h (hmem k), exec_inRange h hpar⟩

/-- An error response is not part of what the invariant speaks of. -/
theorem raiseCmdError_inv (q : PortId) (e : CmdError) (s : State) : (raiseCmdError q e s).inv = s.inv := by
  simp only [State.inv, raiseCmdError_lines, raiseCmdError_params]

/-- Settles O51: the invariant is about `lines` and `params`, which only `exec` can change (`exec_inv`). -/
theorem stepKeepsInvariant : Obligations.StepKeepsInvariant := by
  intro s t hs h
  obtain ⟨-, rfl⟩ | ⟨c, rest, i, -, -, hx⟩ | ⟨c, rest, e, -, -, rfl⟩ := step_cases h
  · exact hs
  · exact exec_inv hx hs
  · rw [raiseCmdError_inv]; exact hs

/-- Settles O50: all lines are zero and the defaults of R45 lie in the ranges of R34. -/
theorem invariantHoldsAtReset : Obligations.InvariantHoldsAtReset :=
  Bool.and_eq_true_iff.2 ⟨zero_lines_wf, by decide⟩

/-- Settles O52: neither an execution nor an error response writes `cfg`. -/
theorem configurationIsConstant : Obligations.ConfigurationIsConstant := by
  intro s t h
  obtain ⟨-, rfl⟩ | ⟨c, rest, i, -, -, hx⟩ | ⟨c, rest, e, -, -, rfl⟩ := step_cases h
  · rfl
  · exact (exec_cfg_pending hx).1
  · exact raiseCmdError_cfg ..

/-- Settles O41: `exec_readParam` at each register. -/
theorem parameterChangedOnlyByItsSet : Obligations.ParameterChangedOnlyByItsSet := fun _ _ _ h =>
  ⟨exec_readParam (p := .gain) h, exec_readParam (p := .reverb) h, exec_readParam (p := .echo) h,
    exec_readParam (p := .pitch) h⟩

/-- Settles O42: `exec_lines` and, line by line, `exec_cur`. -/
theorem linesChangeOnlyInProcAndReset : Obligations.LinesChangeOnlyInProcAndReset := fun _ _ _ h =>
  ⟨exec_lines h, exec_cur h⟩

/-! PITCH (R38). -/

/-- `s` with another value in PITCH. -/
def State.withPitch (s : State) (p : ParamWord) : State := { s with params := { s.params with pitch := p } }

theorem respond_withPitch (q : PortId) (d : BitVec 32) (s : State) (p : ParamWord) :
    respond q d (s.withPitch p) = (respond q d s).withPitch p := by cases q <;> rfl

theorem readParam_withPitch {r : ParamId} (hr : r ≠ .pitch) (s : State) (p : ParamWord) :
    readParam (s.withPitch p).params r = readParam s.params r := by
  cases r with
  | pitch => exact absurd rfl hr
  | gain | reverb | echo => rfl

/-- No stage reads PITCH. -/
theorem procExact_withPitch (tie : Tie) (x : Sample) (s : State) (p : ParamWord) (ls : DelayLines) :
    procExact tie x (s.withPitch p).params ls = procExact tie x s.params ls := rfl

theorem setParam_withPitch {r : ParamId} (hr : r ≠ .pitch) (v : ParamWord) (s : State) (p : ParamWord) :
    setParam r v (s.withPitch p) = (setParam r v s).withPitch p := by
  cases r with
  | pitch => exact absurd rfl hr
  | gain | reverb | echo => rfl

theorem getParam_withPitch {r : ParamId} (hr : r ≠ .pitch) (s : State) (p : ParamWord) :
    getParam r (s.withPitch p) = (getParam r s).withPitch p := by
  rw [getParam, readParam_withPitch hr, respond_withPitch, getParam]

/-- R38: a command other than SETP and GETP neither reads nor writes PITCH. -/
theorem exec_withPitch {i : Instr} {s t : State} (hset : ∀ v, i ≠ .setp v) (hget : i ≠ .getp) (h : exec i s = .next t)
    (p : ParamWord) : exec i (s.withPitch p) = .next (t.withPitch p) := by
  obtain ⟨x, rfl, rfl⟩ | ⟨rfl, rfl⟩ | ⟨r, v, rfl, rfl⟩ | ⟨r, rfl, rfl⟩ := exec_cases h
  · rw [exec_proc, procExact_withPitch, ← respond_withPitch]; rfl
  · rw [exec_reset, ← respond_withPitch]; rfl
  · have hr : r ≠ .pitch := fun e => hset v (by rw [e]; rfl)
    rw [exec_setInstr, setParam_withPitch hr]
  · have hr : r ≠ .pitch := fun e => hget (by rw [e]; rfl)
    rw [exec_getInstr, getParam_withPitch hr]

/-- Settles O43: `exec_withPitch`, and what SETP and then GETP do. -/
theorem pitchIsInert : Obligations.PitchIsInert := by
  refine ⟨fun i s p hset hget => ?_, fun s v => ?_, rfl⟩
  · obtain ⟨t, ht⟩ := exec_next i s
    exact ⟨t, ht, exec_withPitch hset hget ht p⟩
  · exact ⟨setParam .pitch v s, _, exec_setInstr .pitch v s, rfl, exec_getInstr .pitch _⟩

end Sys2Proof.Machine
end

section
/-! Words and their commands: which commands a port accepts, that a command's word is read back at its port, and that every
step which takes a word answers it once, at the port where it was presented (R78, R90, R96). -/

namespace Sys2Proof

/-- R96: a port accepts the opcodes of its own commands and of no others. -/
theorem accepts_opcodeOf (q : PortId) (i : Instr) : accepts q (opcodeOf i) = decide (i.port = q) := by
  cases q <;> cases i <;> rfl

theorem formatS_opcode {w : CommandWord} {mk : Sample → Instr} {i : Instr} {o : BitVec 8} (h : formatS w mk = .ok i)
    (ho : ∀ x, opcodeOf (mk x) = o) : opcodeOf i = o := by
  unfold formatS at h
  split_ifs at h
  cases h
  exact ho _

theorem formatV_opcode {w : CommandWord} {mk : ParamWord → Instr} {i : Instr} {o : BitVec 8} (h : formatV w mk = .ok i)
    (ho : ∀ v, opcodeOf (mk v) = o) : opcodeOf i = o := by
  cases h
  exact ho _

theorem formatZ_opcode {w : CommandWord} {j i : Instr} {o : BitVec 8} (h : formatZ w j = .ok i) (ho : opcodeOf j = o) :
    opcodeOf i = o := by
  unfold formatZ at h
  split_ifs at h
  cases h
  exact ho

/-- A word read as a command has that command's opcode, one its port accepts. -/
theorem opcode_of_decode_ok {q : PortId} {w : CommandWord} {i : Instr} (h : decode q w = .ok i) :
    opcodeOf i = opcodeField w ∧ accepts q (opcodeField w) = true := by
  unfold decode at h
  obtain ⟨-, h⟩ | ⟨hacc, h⟩ := ite_eq_iff.1 h
  · cases h
  refine ⟨?_, Bool.eq_true_of_not_eq_false hacc⟩
  obtain ⟨hop, h⟩ | ⟨-, h⟩ := ite_eq_iff.1 h
  · exact formatS_opcode h fun _ => hop.symm
  obtain ⟨hop, h⟩ | ⟨-, h⟩ := ite_eq_iff.1 h
  · exact formatZ_opcode h hop.symm
  obtain ⟨hop, h⟩ | ⟨-, h⟩ := ite_eq_iff.1 h
  · exact formatV_opcode h fun _ => hop.symm
  obtain ⟨hop, h⟩ | ⟨-, h⟩ := ite_eq_iff.1 h
  · exact formatV_opcode h fun _ => hop.symm
  obtain ⟨hop, h⟩ | ⟨-, h⟩ := ite_eq_iff.1 h
  · exact formatV_opcode h fun _ => hop.symm
  obtain ⟨hop, h⟩ | ⟨-, h⟩ := ite_eq_iff.1 h
  · exact formatV_opcode h fun _ => hop.symm
  obtain ⟨hop, h⟩ | ⟨-, h⟩ := ite_eq_iff.1 h
  · exact formatZ_opcode h hop.symm
  obtain ⟨hop, h⟩ | ⟨-, h⟩ := ite_eq_iff.1 h
  · exact formatZ_opcode h hop.symm
  obtain ⟨hop, h⟩ | ⟨-, h⟩ := ite_eq_iff.1 h
  · exact formatZ_opcode h hop.symm
  obtain ⟨hop, h⟩ | ⟨-, h⟩ := ite_eq_iff.1 h
  · exact formatZ_opcode h hop.symm
  cases h

/-- R96: a word read as a command was presented at that command's port. -/
theorem port_of_decode_ok {q : PortId} {w : CommandWord} {i : Instr} (h : decode q w = .ok i) : i.port = q := by
  obtain ⟨hop, hacc⟩ := opcode_of_decode_ok h
  rwa [← hop, accepts_opcodeOf, decide_eq_true_eq] at hacc

/-- R90 to R93: a command's word is read back at the command's port. -/
theorem decode_port_encode (i : Instr) : decode i.port (encode i) = .ok i := by
  have hacc : accepts i.port (opcodeOf i) = true := by simp [accepts_opcodeOf]
  simp only [decode, encode_opcode, hacc]
  cases i with
  | proc x => simp [opcodeOf, formatS, rsvField_encode_proc, sampleField_encode_proc]
  | setg v | setr v | sete v | setp v => simp [opcodeOf, formatV, encode_operand, operandOf]
  | reset | getg | getr | gete | getp => simp [opcodeOf, formatZ, encode_operand, operandOf]

/-- The word of PROC with its opcode and reserved field together, as the statements write it (R91). -/
theorem encode_proc (x : Sample) : encode (.proc x) = 0x010000#24 ++ x := by
  refine BitVec.eq_of_getLsbD_eq fun i hi => ?_
  rw [encode, getLsbD_word, show 0x010000#24 = 0x01#8 ++ 0#16 from by decide]
  refine Eq.trans ?_ (BitVec.getLsbD_append (y := x)).symm
  simp only [opcodeOf, operandOf, BitVec.getLsbD_setWidth, BitVec.getLsbD_append, BitVec.getLsbD_zero]
  by_cases h16 : i < 16
  · have h32 : i < 32 := by omega
    simp [h16, h32]
  · by_cases h32 : i < 32
    · have hlow : i - 16 < 16 := by omega
      simp [h16, h32, hlow, BitVec.getLsbD_of_ge x i (by omega)]
    · have hhigh : ¬ i - 16 < 16 := by omega
      simp [h16, h32, hhigh, Nat.sub_sub]

end Sys2Proof

namespace Sys2Proof.Machine

theorem setInstr_port (p : ParamId) (v : ParamWord) : (setInstr p v).port = .cp := by cases p <;> rfl

theorem getInstr_port (p : ParamId) : (getInstr p).port = .cp := by cases p <;> rfl

/-- R78: a command gives one response, at its own port, and apart from that changes at most the lines and the registers. -/
theorem exec_gives_response (i : Instr) (s : State) :
    ∃ ls ps r, exec i s = .next (giveResponse i.port r { s with lines := ls, params := ps }) := by
  obtain ⟨x, rfl⟩ | rfl | ⟨p, v, rfl⟩ | ⟨p, rfl⟩ := instr_cases i
  · exact ⟨_, _, _, exec_proc x s⟩
  · exact ⟨_, _, _, exec_reset s⟩
  · rw [setInstr_port]; exact ⟨_, _, _, exec_setInstr p v s⟩
  · rw [getInstr_port]; exact ⟨_, _, _, exec_getInstr p s⟩

/-- R78: a step takes the first presented word and gives one response, at that word's port. -/
theorem step_gives_response {s : State} {c : Presented} {rest : List Presented} (h : s.pending = c :: rest) :
    ∃ ls ps r, step s = .next (giveResponse c.port r { s with lines := ls, params := ps, pending := rest }) := by
  cases hd : decode c.port c.word with
  | ok i => rw [step_of_decode_ok h hd, ← port_of_decode_ok hd]; exact exec_gives_response i _
  | error e => rw [step_of_decode_error h hd]; exact ⟨_, _, _, rfl⟩

/-- The responses given do not depend on the lines, the registers and the words still presented. -/
theorem outAt_update (s : State) (ls : DelayLines) (ps : EffectParams) (l : List Presented) (q : PortId) :
    State.outAt { s with lines := ls, params := ps, pending := l } q = s.outAt q := by cases q <;> rfl

/-- R78: a step on a presented word appends one response at that word's port and none at the other. -/
theorem step_answers_once {s : State} {c : Presented} {rest : List Presented} (h : s.pending = c :: rest) :
    ∃ t r, step s = .next t ∧ t.pending = rest ∧ t.outAt c.port = s.outAt c.port ++ [r] ∧
      ∀ q, q ≠ c.port → t.outAt q = s.outAt q := by
  obtain ⟨ls, ps, r, hstep⟩ := step_gives_response h
  refine ⟨_, r, hstep, giveResponse_pending .., ?_, fun q hq => ?_⟩
  · rw [giveResponse_outAt_same, outAt_update]
  · rw [giveResponse_outAt_other _ _ hq, outAt_update]

@[simp] theorem atPort_nil (q : PortId) : atPort q [] = [] := rfl

theorem atPort_cons_same (c : Presented) (l : List Presented) : atPort c.port (c :: l) = c.word :: atPort c.port l := by
  simp [atPort]

theorem atPort_cons_other {q : PortId} {c : Presented} (h : q ≠ c.port) (l : List Presented) :
    atPort q (c :: l) = atPort q l := by simp [atPort, h.symm]

theorem runSteps_succ_next {s t : State} (h : step s = .next t) (n : Nat) : runSteps (n + 1) s = runSteps n t := by
  simp only [runSteps, h]

/-- R78: as many steps as words are presented answer them all, each at its port. -/
theorem run_answers_all (l : List Presented) (s : State) (h : s.pending = l) :
    ∃ t, runSteps l.length s = .next t ∧ t.pending = [] ∧
      ∀ q, ∃ rs, t.outAt q = s.outAt q ++ rs ∧ rs.length = (atPort q l).length := by
  induction l generalizing s with
  | nil => exact ⟨s, rfl, h, fun q => ⟨[], by simp⟩⟩
  | cons c rest ih =>
    obtain ⟨t, r, hstep, hpend, hsame, hother⟩ := step_answers_once h
    obtain ⟨u, hrun, hnil, hout⟩ := ih t hpend
    refine ⟨u, (runSteps_succ_next hstep _).trans hrun, hnil, fun q => ?_⟩
    obtain ⟨rs, hrs, hlen⟩ := hout q
    by_cases hq : q = c.port
    · subst hq
      exact ⟨r :: rs, by simp [hrs, hsame], by simp [atPort_cons_same, hlen]⟩
    · exact ⟨rs, by rw [hrs, hother q hq], by rw [hlen, atPort_cons_other hq]⟩

/-- Settles O12: `step_answers_once`, and `run_answers_all` for the list of the words presented. -/
theorem everyWordAnsweredOnce : Obligations.EveryWordAnsweredOnce :=
  ⟨fun _ _ _ h => step_answers_once h, fun s => run_answers_all _ s rfl⟩

end Sys2Proof.Machine
end

section
/-! Sequences of commands: they always answer, and keep a register that none of them sets (R34, R205). -/

namespace Sys2Proof.Machine

open Sys2Proof.Claims

/-- R230 for sequences of commands. -/
theorem execAll_next (is : List Instr) (s : State) : ∃ t, execAll is s = .next t := by
  induction is generalizing s with
  | nil => exact ⟨s, rfl⟩
  | cons i is ih =>
    obtain ⟨t, ht⟩ := exec_next i s
    rw [execAll_cons_next ht]
    exact ih t

/-- R34: commands among which the SET of register `p` is not leave the register as it is. -/
theorem execAll_readParam {p : ParamId} {is : List Instr} {s u : State} (h : execAll is s = .next u)
    (his : ∀ v, setInstr p v ∉ is) : readParam u.params p = readParam s.params p := by
  induction is generalizing s with
  | nil => cases h; rfl
  | cons i is ih =>
    obtain ⟨t, ht⟩ := exec_next i s
    rw [execAll_cons_next ht] at h
    rw [ih h fun v hv => his v (List.mem_cons_of_mem i hv),
      exec_readParam ht fun v hv => his v (hv ▸ List.mem_cons_self ..)]

/-- R77 (a): the answer of a SET is what the register's GET answers after commands that do not set it. -/
theorem get_answers_last_set (p : ParamId) (v : ParamWord) {is : List Instr} (his : ∀ w, setInstr p w ∉ is) (s : State) :
    ∃ t u n, exec (setInstr p v) s = .next t ∧ t.cpOut = s.cpOut ++ [okWord n] ∧ execAll is t = .next u ∧
      exec (getInstr p) u = .next { u with cpOut := u.cpOut ++ [okWord n] } := by
  obtain ⟨u, hu⟩ := execAll_next is (setParam p v s)
  have hkept := execAll_readParam hu his
  rw [setParam_params, readParam_writeParam, if_pos rfl] at hkept
  exact ⟨_, u, _, exec_setInstr p v s, setParam_cpOut .., hu, by rw [exec_getInstr, getParam, hkept]; rfl⟩

/-- Settles O40: `get_answers_last_set` at each register. -/
theorem getAnswersTheLastSet : Obligations.GetAnswersTheLastSet := fun v _ s =>
  ⟨fun h => get_answers_last_set .gain v h s, fun h => get_answers_last_set .reverb v h s,
    fun h => get_answers_last_set .echo v h s, fun h => get_answers_last_set .pitch v h s⟩

end Sys2Proof.Machine
end

section
/-! The cursors: advancing a line, and the delay of a line as the number of pushes that bring its cursor back (R66). -/

namespace Sys2Proof.Machine

theorem dlAdvance_line_same (ls : DelayLines) (k : LineId) : (dlAdvance ls k).line k = (ls.line k).advance :=
  line_setLine_same ..

theorem dlAdvance_line_other (ls : DelayLines) {j k : LineId} (h : j ≠ k) : (dlAdvance ls k).line j = ls.line j :=
  line_setLine_other _ h _

/-- Advancing a line `n` times advances that line alone. -/
theorem iterate_dlAdvance_line_same (ls : DelayLines) (k : LineId) (n : Nat) :
    ((fun l => dlAdvance l k)^[n] ls).line k = DelayLine.advance^[n] (ls.line k) := by
  induction n with
  | zero => rfl
  | succ n ih => simp only [Function.iterate_succ_apply', dlAdvance_line_same, ih]

theorem iterate_dlAdvance_line_other (ls : DelayLines) {j k : LineId} (h : j ≠ k) (n : Nat) :
    ((fun l => dlAdvance l k)^[n] ls).line j = ls.line j := by
  induction n with
  | zero => rfl
  | succ n ih => simp only [Function.iterate_succ_apply', dlAdvance_line_other _ h, ih]

theorem iterate_advance_mem {cap : Nat} (l : DelayLine cap) (n : Nat) : (DelayLine.advance^[n] l).mem = l.mem := by
  induction n with
  | zero => rfl
  | succ n ih => rw [Function.iterate_succ_apply', advance_mem, ih]

theorem iterate_advance_cur_val {cap : Nat} (l : DelayLine cap) (n : Nat) :
    (DelayLine.advance^[n] l).cur.val = (l.cur.val + n) % cap := by
  induction n with
  | zero => exact (Nat.mod_eq_of_lt l.cur.isLt).symm
  | succ n ih => rw [Function.iterate_succ_apply', advance_cur, nextCursor_val, ih, Nat.mod_add_mod, Nat.add_assoc]

/-- R66: the next index, wrapping from the last one to 0. -/
theorem nextCursor_val_eq_ite {cap : Nat} (c : Fin cap) : (nextCursor c).val = if c.val = cap - 1 then 0 else c.val + 1 := by
  have hc := c.isLt
  rw [nextCursor_val]
  split_ifs with h
  · rw [h, Nat.sub_add_cancel (Nat.zero_lt_of_lt hc), Nat.mod_self]
  · exact Nat.mod_eq_of_lt (by omega)

/-- Settles O46: line by line, the iterated advance of one line. -/
theorem cursorWrapsModuloCapacity : Obligations.CursorWrapsModuloCapacity := by
  intro ls k n
  refine ⟨?_, fun j a => ?_, fun j hj => iterate_dlAdvance_line_other ls hj n, ?_⟩
  · rw [iterate_dlAdvance_line_same, iterate_advance_cur_val]
  · by_cases hj : j = k
    · subst hj
      rw [memRead, iterate_dlAdvance_line_same, iterate_advance_mem, memRead]
    · rw [memRead, iterate_dlAdvance_line_other ls hj, memRead]
  · rw [dlAdvance_line_same, advance_cur, nextCursor_val_eq_ite]

/-- Words pushed onto a line one after another. -/
def DelayLine.pushAll {cap : Nat} (l : DelayLine cap) (vs : List Sample) : DelayLine cap := vs.foldl DelayLine.push l

theorem pushAll_cons {cap : Nat} (l : DelayLine cap) (v : Sample) (vs : List Sample) :
    l.pushAll (v :: vs) = (l.push v).pushAll vs := rfl

theorem pushAll_cur_val {cap : Nat} (l : DelayLine cap) (vs : List Sample) :
    (l.pushAll vs).cur.val = (l.cur.val + vs.length) % cap := by
  induction vs generalizing l with
  | nil => exact (Nat.mod_eq_of_lt l.cur.isLt).symm
  | cons v vs ih =>
    rw [pushAll_cons, ih, push_cur, nextCursor_val, Nat.mod_add_mod, List.length_cons, Nat.add_assoc, Nat.add_comm 1]

/-- Pushes leave a word alone that the cursor does not pass. -/
theorem pushAll_read_of_not_passed {cap : Nat} (l : DelayLine cap) (vs : List Sample) {a : Nat}
    (h : ∀ j < vs.length, a ≠ (l.cur.val + j) % cap) : (l.pushAll vs).mem.read a = l.mem.read a := by
  induction vs generalizing l with
  | nil => rfl
  | cons v vs ih =>
    have hhere : a ≠ l.cur.val := by simpa [Nat.mod_eq_of_lt l.cur.isLt] using h 0 (by simp)
    rw [pushAll_cons, ih, push_read, if_neg hhere]
    intro j hj
    rw [push_cur, nextCursor_val, Nat.mod_add_mod, Nat.add_assoc, Nat.add_comm 1]
    exact h (j + 1) (by simpa using hj)

/-- Fewer moves than the capacity do not bring a cursor back. -/
theorem add_mod_ne_self {c cap j : Nat} (hc : c < cap) (hj : 0 < j) (hlt : j < cap) : c ≠ (c + j) % cap := by
  rw [Nat.add_mod_eq_ite, Nat.mod_eq_of_lt hc, Nat.mod_eq_of_lt hlt]
  split_ifs <;> omega

/-- R66: `cap` pushes bring the cursor back, to the word that the first of them wrote. -/
theorem pushAll_returns {cap : Nat} (l : DelayLine cap) (v : Sample) {vs : List Sample} (h : vs.length + 1 = cap) :
    ((l.push v).pushAll vs).cur = l.cur ∧ ((l.push v).pushAll vs).mem.read l.cur.val = (l.push v).mem.read l.cur.val := by
  refine ⟨Fin.ext ?_, pushAll_read_of_not_passed _ _ fun j hj => ?_⟩
  · rw [← pushAll_cons, pushAll_cur_val, List.length_cons, h, Nat.add_mod_right, Nat.mod_eq_of_lt l.cur.isLt]
  · rw [push_cur, nextCursor_val, Nat.mod_add_mod, Nat.add_assoc]
    exact add_mod_ne_self l.cur.isLt (by omega) (by omega)

/-- R66, R70: a command other than RESET pushes one word onto line `k` when it is a PROC in which the line is active, and
leaves the line whole otherwise. -/
theorem exec_line_pushAll {i : Instr} {s t : State} (h : exec i s = .next t) (hi : i ≠ .reset) (k : LineId) :
    ∃ vs, vs.length = (activeAt k i s).toNat ∧ t.lines.line k = (s.lines.line k).pushAll vs := by
  obtain ⟨x, rfl, rfl⟩ | ⟨hr, -⟩ | ⟨p, v, rfl, rfl⟩ | ⟨p, rfl, rfl⟩ := exec_cases h
  · rw [respond_lines, activeAt_proc]
    by_cases hk : levelOf k s.params = 0#32
    · exact ⟨[], by simp [hk], procExact_line_bypassed _ _ _ hk⟩
    · obtain ⟨v, hv⟩ := procExact_line_active s.cfg.tie x s.lines hk
      exact ⟨[v], by simp [hk], hv⟩
  · exact absurd hr hi
  · exact ⟨[], by cases p <;> rfl, rfl⟩
  · exact ⟨[], by cases p <;> rfl, rfl⟩

/-- R66: commands without RESET push onto line `k` as many words as PROCs among them are active on it. -/
theorem execAll_line_pushAll {is : List Instr} {s u : State} (h : execAll is s = .next u) (his : noReset is) (k : LineId) :
    ∃ vs, vs.length = activeProcs k is s ∧ u.lines.line k = (s.lines.line k).pushAll vs := by
  induction is generalizing s with
  | nil => cases h; exact ⟨[], rfl, rfl⟩
  | cons i is ih =>
    obtain ⟨hi, his⟩ := List.ne_and_not_mem_of_not_mem_cons his
    obtain ⟨t, ht⟩ := exec_next i s
    rw [execAll_cons_next ht] at h
    obtain ⟨vs, hvs, hline⟩ := exec_line_pushAll ht (Ne.symm hi) k
    obtain ⟨ws, hws, hrest⟩ := ih h his
    refine ⟨vs ++ ws, ?_, ?_⟩
    · rw [activeProcs_cons_next ht, List.length_append, hvs, hws]
    · rw [hrest, hline, DelayLine.pushAll, DelayLine.pushAll, DelayLine.pushAll, List.foldl_append]

/-- Settles O47: the PROC pushes the first word, the commands after it `CAP[k] - 1` more, and `pushAll_returns`. -/
theorem delayIsExactlyTheCapacity : Obligations.DelayIsExactlyTheCapacity := by
  intro k x is s his hk
  obtain ⟨v, hv⟩ := procExact_line_active s.cfg.tie x s.lines hk
  refine ⟨_, exec_proc x s, fun hcount => ?_⟩
  obtain ⟨u, hu⟩ := execAll_next is _
  obtain ⟨vs, hvs, hline⟩ := execAll_line_pushAll hu his k
  rw [← hvs] at hcount
  rw [respond_lines, hv] at hline
  obtain ⟨hcur, hread⟩ := pushAll_returns (s.lines.line k) v hcount
  rw [← hline] at hcur hread
  refine ⟨u, hu, hcur, ?_⟩
  rw [dlRead_eq_memRead, hcur, memRead, hread, memRead, respond_lines, hv]

end Sys2Proof.Machine
end

section
/-! The stages of PROC in the terms of the statements, and what one PROC leaves at each word (R120, R131, R133, R150). -/

namespace Sys2Proof.Machine

open Sys2Proof.Claims

/-- R120. -/
theorem gainStage_eq (x : Sample) (g : ParamWord) : gainStage x g = (x.toInt : Rat) * numberOf g := rfl

/-- The bank's words at their cursors, summed in bank order. -/
theorem bank_sum_eq_oldSum (ls : DelayLines) : (Config.bank.map fun k => (dlRead ls k).toInt).sum = oldSum ls := by
  simp only [Config.bank, List.map_cons, List.map_nil, List.sum_cons, List.sum_nil, add_zero, oldSum, oldWord,
    dlRead_eq_memRead, add_assoc]

/-- R130, R132, R133. -/
theorem reverbStage_value_eq_afterReverb (tie : Tie) (s0 : Rat) (n : ParamWord) (ls : DelayLines) :
    (reverbStage tie s0 n ls).2 = afterReverb s0 n ls := by
  rw [reverbStage_value, bank_sum_eq_oldSum]
  rfl

/-- R131, step 2. -/
theorem combFeedback_toInt (tie : Tie) (s0 : Rat) (ls : DelayLines) (k : LineId) :
    (combFeedback tie s0 (dlRead ls k)).toInt = satInt tie (s0 + (oldWord ls k : Rat) * (1 / 2)) := sat_toInt ..

/-- R150. -/
theorem echoFeedback_toInt (tie : Tie) (s1 : Rat) (ls : DelayLines) (k : LineId) :
    (echoFeedback tie s1 (dlRead ls k)).toInt = satInt tie (s1 + (oldWord ls k : Rat) * (2 / 5)) := sat_toInt ..

/-- A line pushed onto: its cursor has moved by one, and the word at the old cursor is the one pushed. -/
theorem pushed_line_words {ls ms : DelayLines} {k : LineId} {v : Sample} (h : ms.line k = (ls.line k).push v) :
    (ms.line k).cur.val = ((ls.line k).cur.val + 1) % Config.cap k ∧
      ∀ a, (memRead ms k a).toInt = if a = (ls.line k).cur then v.toInt else (memRead ls k a).toInt := by
  refine ⟨by rw [h, push_cur, nextCursor_val], fun a => ?_⟩
  rw [memRead, h, push_read, memRead, apply_ite BitVec.toInt]
  simp only [Fin.ext_iff]

/-- An active reverb line after a PROC (R131). -/
theorem procExact_reverb_line (tie : Tie) (x : Sample) {ps : EffectParams} (ls : DelayLines) {k : LineId} (hk : k ≠ .echo)
    (h : ps.reverb ≠ 0#32) : (procExact tie x ps ls).1.line k =
      (ls.line k).push (combFeedback tie ((x.toInt : Rat) * numberOf ps.gain) (dlRead ls k)) := by
  rw [procExact_line, if_neg hk, if_neg h, gainStage_eq]

/-- The active echo line after a PROC (R150). -/
theorem procExact_echo_line (tie : Tie) (x : Sample) {ps : EffectParams} (ls : DelayLines) (h : ps.echo ≠ 0#32) :
    (procExact tie x ps ls).1.line .echo = (ls.line .echo).push
      (echoFeedback tie (afterReverb ((x.toInt : Rat) * numberOf ps.gain) ps.reverb ls) (dlRead ls .echo)) := by
  rw [procExact_line, if_pos rfl, if_neg h, reverbStage_value_eq_afterReverb, gainStage_eq]

/-- Settles O22: an active line is pushed onto once (`pushed_line_words`), a bypassed one is left whole. -/
theorem procWritesOneWordPerActiveLine : Obligations.ProcWritesOneWordPerActiveLine := by
  intro x s
  refine ⟨_, exec_proc x s, fun k hk hr => ?_, fun he => ?_, fun hr k hk => ?_, fun he => ?_⟩ <;> rw [respond_lines]
  · rw [← combFeedback_toInt]
    exact pushed_line_words (procExact_reverb_line _ _ _ hk hr)
  · rw [← echoFeedback_toInt]
    exact pushed_line_words (procExact_echo_line _ _ _ he)
  · exact procExact_line_bypassed _ _ _ ((levelOf_of_ne_echo hk _).trans hr)
  · exact procExact_line_bypassed _ _ _ ((levelOf_echo _).trans he)

end Sys2Proof.Machine
end

section
/-! Two ports: the interleavings of what two hosts present, and the steps on a SETG and on a PROC with both engines bypassed
(R77, V90). -/

namespace Sys2Proof.Machine

open Sys2Proof.Claims

/-- Where words are presented at both ports, the first word of one port comes first and the rest interleave. -/
theorem head_of_atPort {l : List Presented} {d c : CommandWord} {ds cs : List CommandWord}
    (hdp : atPort .dp l = d :: ds) (hcp : atPort .cp l = c :: cs) :
    (∃ rest, l = ⟨.dp, d⟩ :: rest ∧ atPort .dp rest = ds ∧ atPort .cp rest = c :: cs) ∨
    (∃ rest, l = ⟨.cp, c⟩ :: rest ∧ atPort .dp rest = d :: ds ∧ atPort .cp rest = cs) := by
  match l with
  | [] => cases hdp
  | ⟨.dp, w⟩ :: rest =>
    obtain ⟨rfl, hds⟩ := List.cons.inj hdp
    exact .inl ⟨rest, rfl, hds, hcp⟩
  | ⟨.cp, w⟩ :: rest =>
    obtain ⟨rfl, hcs⟩ := List.cons.inj hcp
    exact .inr ⟨rest, rfl, hdp, hcs⟩

/-- Where no word is presented at another port than `q`, the list is that of the words at `q`. -/
theorem eq_map_of_atPort {q : PortId} {l : List Presented} {ws : List CommandWord} (hq : atPort q l = ws)
    (h : ∀ q', q' ≠ q → atPort q' l = []) : l = ws.map fun w => ⟨q, w⟩ := by
  subst hq
  induction l with
  | nil => rfl
  | cons c l ih =>
    have hc : c.port = q := by
      by_contra hne
      exact List.cons_ne_nil _ _ ((atPort_cons_same c l).symm.trans (h c.port hne))
    subst hc
    rw [atPort_cons_same, List.map_cons, ← ih fun q' hq => (atPort_cons_other hq l).symm.trans (h q' hq)]

/-- V90: two words at the data port and one at the control port stand in one of three orders. -/
theorem interleavings_of_two_and_one {l : List Presented} {d e c : CommandWord} (hdp : atPort .dp l = [d, e])
    (hcp : atPort .cp l = [c]) :
    l = [⟨.cp, c⟩, ⟨.dp, d⟩, ⟨.dp, e⟩] ∨ l = [⟨.dp, d⟩, ⟨.cp, c⟩, ⟨.dp, e⟩] ∨ l = [⟨.dp, d⟩, ⟨.dp, e⟩, ⟨.cp, c⟩] := by
  obtain ⟨l, rfl, hdp, hcp⟩ | ⟨l, rfl, hdp, hcp⟩ := head_of_atPort hdp hcp
  · obtain ⟨l, rfl, hdp, hcp⟩ | ⟨l, rfl, hdp, hcp⟩ := head_of_atPort hdp hcp
    · obtain rfl := eq_map_of_atPort hcp fun | .dp, _ => hdp | .cp, h => absurd rfl h
      exact .inr (.inr rfl)
    · obtain rfl := eq_map_of_atPort hdp fun | .cp, _ => hcp | .dp, h => absurd rfl h
      exact .inr (.inl rfl)
  · obtain rfl := eq_map_of_atPort hdp fun | .cp, _ => hcp | .dp, h => absurd rfl h
    exact .inl rfl

/-- R201: a step on the word of SETG. -/
theorem step_setg {s : State} {v : ParamWord} {rest : List Presented} (h : s.pending = ⟨.cp, 0x10#8 ++ v⟩ :: rest) :
    step s = .next { s with params := { s.params with gain := v }, pending := rest, cpOut := s.cpOut ++ [okWord v] } :=
  step_of_decode_ok h (decode_port_encode (.setg v))

/-- R132, R151: with both engines bypassed, PROC is the gain stage and the Saturator, and leaves the lines whole. -/
theorem procExact_bypassed (tie : Tie) (x : Sample) {ps : EffectParams} (ls : DelayLines) (hr : ps.reverb = 0#32)
    (he : ps.echo = 0#32) : procExact tie x ps ls = (ls, sat tie ((x.toInt : Rat) * numberOf ps.gain)) := by
  simp only [procExact, readParam, reverbStage, echoStage, hr, he, if_true, gainStage_eq]

/-- R180: a step on the word of PROC with both engines bypassed. -/
theorem step_proc_bypassed {s : State} {x : Sample} {rest : List Presented}
    (h : s.pending = ⟨.dp, 0x010000#24 ++ x⟩ :: rest) (hr : s.params.reverb = 0#32) (he : s.params.echo = 0#32) :
    step s = .next { s with
      pending := rest
      dpOut := s.dpOut ++ [sampleWord (satInt s.cfg.tie ((x.toInt : Rat) * numberOf s.params.gain))] } := by
  rw [← encode_proc] at h
  rw [step_of_decode_ok h (decode_port_encode (.proc x)), exec_proc, procExact_bypassed _ _ _ hr he, respond,
    okResponse_sampleData]
  rfl

theorem runSteps_three_next {s t u w : State} (hs : step s = .next t) (ht : step t = .next u) (hu : step u = .next w) :
    runSteps 3 s = .next w := by
  rw [runSteps_succ_next hs, runSteps_succ_next ht, runSteps_succ_next hu, runSteps]

/-- Settles O44: the list stands in one of three orders (`interleavings_of_two_and_one`), and in each order the three steps are run. -/
theorem everyInterleavingOfTwoPorts : Obligations.EveryInterleavingOfTwoPorts := by
  intro s x y v hr he hdp hcp
  obtain hp | hp | hp := interleavings_of_two_and_one hdp hcp
  · refine ⟨_, runSteps_three_next (step_setg hp) (step_proc_bypassed rfl hr he) (step_proc_bypassed rfl hr he), rfl, rfl,
      .inl ⟨hp, ?_⟩⟩
    exact List.append_assoc ..
  · refine ⟨_, runSteps_three_next (step_proc_bypassed hp hr he) (step_setg rfl) (step_proc_bypassed rfl hr he), rfl, rfl,
      .inr (.inl ⟨hp, ?_⟩)⟩
    exact List.append_assoc ..
  · refine ⟨_, runSteps_three_next (step_proc_bypassed hp hr he) (step_proc_bypassed rfl hr he) (step_setg rfl), rfl, rfl,
      .inr (.inr ⟨hp, ?_⟩)⟩
    exact List.append_assoc ..

/-- Settles O45: the step on SETG (`step_setg`), then the step on PROC in the state it left (`step_proc_bypassed`). -/
theorem waitingForTheResponseOrdersThePorts : Obligations.WaitingForTheResponseOrdersThePorts := by
  intro s x v hp hr he
  have hsetg : (present [⟨.cp, 0x10#8 ++ v⟩] s).pending = [⟨.cp, 0x10#8 ++ v⟩] := by rw [present_pending, hp, List.nil_append]
  exact ⟨_, _, step_setg hsetg, rfl, rfl, step_proc_bypassed rfl hr he, rfl⟩

end Sys2Proof.Machine
end

section
/-! The decoder, said once (R98): which words a port answers with which error, and that every other word is the command with its
opcode and operand; then each row of the opcode table as a condition on the fields of the word (R91, R93). -/

namespace Sys2Proof

/-- Settles O6: a well-formed command is at its own port, where its word is read back (`decode_port_encode`). -/
theorem decodeAfterEncode : Obligations.DecodeAfterEncode := by
  intro q i h
  obtain rfl : i.port = q := of_decide_eq_true h
  exact decode_port_encode i

/-! What a port accepts (R96). -/

theorem accepts_dp_iff {o : BitVec 8} : accepts .dp o = true ↔ o = 0x01#8 := beq_iff_eq

theorem accepts_cp_iff {o : BitVec 8} : accepts .cp o = true ↔ o ∈ cpOpcodes := List.contains_iff_mem

/-- R93, R96: an opcode byte that a port accepts is the opcode of a command of the port. -/
theorem exists_command_of_accepts {q : PortId} {o : BitVec 8} (h : accepts q o = true) :
    ∃ i : Instr, i.port = q ∧ opcodeOf i = o := by
  cases q with
  | dp => exact ⟨.proc 0, rfl, (accepts_dp_iff.1 h).symm⟩
  | cp =>
    have hall : ∀ o ∈ cpOpcodes, ∃ i ∈ [Instr.reset, .setg 0, .setr 0, .sete 0, .setp 0, .getg, .getr, .gete, .getp],
        i.port = .cp ∧ opcodeOf i = o := by decide
    obtain ⟨i, -, hi⟩ := hall o (accepts_cp_iff.1 h)
    exact ⟨i, hi⟩

/-! How a word is read, by the format of its opcode (R91). -/

/-- The opcode bytes of format Z (R93). -/
def formatZOpcodes : List (BitVec 8) := [0x02, 0x20, 0x21, 0x22, 0x23]

/-- A bit that the format of the word's opcode reserves is 1 (R91). -/
def ReservedBitSet (w : CommandWord) : Prop :=
  (opcodeField w = 0x01#8 ∧ rsvField w ≠ 0#16) ∨ (opcodeField w ∈ formatZOpcodes ∧ operandField w ≠ 0#32)

/-- How a word with the opcode of `i` is read, whatever the operand of `i` (R91, R93). -/
def readAs (w : CommandWord) (i : Instr) : Except CmdError Instr :=
  match i with
  | .proc _ => formatS w .proc
  | .reset => formatZ w .reset
  | .setg _ => formatV w .setg
  | .setr _ => formatV w .setr
  | .sete _ => formatV w .sete
  | .setp _ => formatV w .setp
  | .getg => formatZ w .getg
  | .getr => formatZ w .getr
  | .gete => formatZ w .gete
  | .getp => formatZ w .getp

/-- R91: with its reserved bits 0, the operand of format S is the Sample extended by zeros. -/
theorem operandField_of_rsvField_zero {w : CommandWord} (h : rsvField w = 0#16) :
    operandField w = (sampleField w).setWidth 32 := by
  rw [operand_eq_fields, h, BitVec.setWidth_eq_append (by decide)]
  rfl

/-- R91: a reserved bit is 1. -/
theorem readAs_of_reserved {w : CommandWord} {i : Instr} (ho : opcodeField w = opcodeOf i) (h : ReservedBitSet w) :
    readAs w i = .error .reservedField := by
  rw [ReservedBitSet, ho] at h
  cases i with
  | proc x =>
    have hrsv : rsvField w ≠ 0#16 := by simpa [opcodeOf, formatZOpcodes] using h
    exact if_neg hrsv
  | setg v | setr v | sete v | setp v => simp [opcodeOf, formatZOpcodes] at h
  | reset | getg | getr | gete | getp =>
    have hop : operandField w ≠ 0#32 := by simpa [opcodeOf, formatZOpcodes] using h
    exact if_neg hop

/-- R91, R92: the reserved bits are 0, and the operand is taken whole. -/
theorem readAs_of_not_reserved {w : CommandWord} {i : Instr} (ho : opcodeField w = opcodeOf i) (h : ¬ ReservedBitSet w) :
    ∃ j, readAs w i = .ok j ∧ opcodeOf j = opcodeField w ∧ operandOf j = operandField w := by
  rw [ReservedBitSet, ho] at h
  rw [ho]
  cases i with
  | proc x =>
    have hrsv : rsvField w = 0#16 := by simpa [opcodeOf, formatZOpcodes] using h
    exact ⟨.proc (sampleField w), if_pos hrsv, rfl, (operandField_of_rsvField_zero hrsv).symm⟩
  | setg v | setr v | sete v | setp v => exact ⟨_, rfl, rfl, rfl⟩
  | reset | getg | getr | gete | getp =>
    have hop : operandField w = 0#32 := by simpa [opcodeOf, formatZOpcodes] using h
    exact ⟨_, if_pos hop, rfl, hop.symm⟩

/-! The decoder (R98). -/

/-- The opcode byte is not one the port accepts. -/
theorem decode_of_not_accepts {q : PortId} {w : CommandWord} (h : accepts q (opcodeField w) = false) :
    decode q w = .error .illegalOpcode := by
  simp only [decode, h, if_true]

/-- A word with the opcode of a command of the port is read by that command's format. -/
theorem decode_of_opcode {q : PortId} {w : CommandWord} {i : Instr} (hq : i.port = q) (ho : opcodeField w = opcodeOf i) :
    decode q w = readAs w i := by
  have hacc : accepts q (opcodeOf i) = true := by rw [accepts_opcodeOf, decide_eq_true hq]
  simp only [decode, ho, hacc]
  cases i <;> rfl

/-- What a word can be at a port: one with a foreign opcode, one with a reserved bit set, or the command of its opcode with its
operand. -/
theorem decode_cases (q : PortId) (w : CommandWord) :
    (¬ accepts q (opcodeField w) = true ∧ decode q w = .error .illegalOpcode) ∨
    (accepts q (opcodeField w) = true ∧ ReservedBitSet w ∧ decode q w = .error .reservedField) ∨
    (accepts q (opcodeField w) = true ∧ ¬ ReservedBitSet w ∧
      ∃ i, decode q w = .ok i ∧ opcodeOf i = opcodeField w ∧ operandOf i = operandField w) := by
  by_cases hacc : accepts q (opcodeField w) = true
  · obtain ⟨i, hq, ho⟩ := exists_command_of_accepts hacc
    rw [decode_of_opcode hq ho.symm]
    by_cases hres : ReservedBitSet w
    · exact .inr (.inl ⟨hacc, hres, readAs_of_reserved ho.symm hres⟩)
    · exact .inr (.inr ⟨hacc, hres, readAs_of_not_reserved ho.symm hres⟩)
  · exact .inl ⟨hacc, decode_of_not_accepts (Bool.eq_false_of_not_eq_true hacc)⟩

theorem decode_eq_illegalOpcode_iff {q : PortId} {w : CommandWord} :
    decode q w = .error .illegalOpcode ↔ ¬ accepts q (opcodeField w) = true := by
  obtain ⟨hacc, hd⟩ | ⟨hacc, -, hd⟩ | ⟨hacc, -, i, hd, -⟩ := decode_cases q w
  all_goals simp [hacc, hd]

theorem decode_eq_reservedField_iff {q : PortId} {w : CommandWord} :
    decode q w = .error .reservedField ↔ accepts q (opcodeField w) = true ∧ ReservedBitSet w := by
  obtain ⟨hacc, hd⟩ | ⟨hacc, hres, hd⟩ | ⟨hacc, hres, i, hd, -⟩ := decode_cases q w
  · simp [hacc, hd]
  · simp [hacc, hres, hd]
  · simp [hres, hd]

theorem decode_ok_of_not_reserved {q : PortId} {w : CommandWord} (hacc : accepts q (opcodeField w) = true)
    (hres : ¬ ReservedBitSet w) : ∃ i, decode q w = .ok i ∧ opcodeOf i = opcodeField w ∧ operandOf i = operandField w := by
  obtain ⟨hn, -⟩ | ⟨-, hr, -⟩ | ⟨-, -, hi⟩ := decode_cases q w
  · exact absurd hacc hn
  · exact absurd hr hres
  · exact hi

/-- The three clauses, with the port's opcode test written as any equivalent condition. -/
theorem decode_error_causes {q : PortId} {w : CommandWord} {P : Prop} (hP : accepts q (opcodeField w) = true ↔ P) :
    (decode q w = .error .illegalOpcode ↔ ¬ P) ∧
    (decode q w = .error .reservedField ↔ P ∧ ReservedBitSet w) ∧
    (P → ¬ ReservedBitSet w → ∃ i, decode q w = .ok i ∧ opcodeOf i = opcodeField w ∧ operandOf i = operandField w) := by
  rw [← hP]
  exact ⟨decode_eq_illegalOpcode_iff, decode_eq_reservedField_iff, decode_ok_of_not_reserved⟩

/-- Settles O5: `decode_error_causes` with the opcode test of each port. -/
theorem decodeErrorCauses : Obligations.DecodeErrorCauses := by
  intro q w
  cases q with
  | dp => exact decode_error_causes accepts_dp_iff
  | cp => exact decode_error_causes accepts_cp_iff

/-! The opcode table (R93). -/

/-- A word is read as a command with opcode `o` exactly when `o` is the word's opcode, the port accepts it and no reserved bit
is 1. -/
theorem decodes_to_opcode_iff {q : PortId} {w : CommandWord} {o : BitVec 8} :
    (∃ i, decode q w = .ok i ∧ opcodeOf i = o) ↔ accepts q o = true ∧ opcodeField w = o ∧ ¬ ReservedBitSet w := by
  constructor
  · rintro ⟨i, hd, rfl⟩
    obtain ⟨hop, hacc⟩ := opcode_of_decode_ok hd
    refine ⟨hop ▸ hacc, hop.symm, fun hres => ?_⟩
    cases hd.symm.trans (decode_eq_reservedField_iff.2 ⟨hacc, hres⟩)
  · rintro ⟨hacc, rfl, hres⟩
    obtain ⟨i, hd, hop, -⟩ := decode_ok_of_not_reserved hacc hres
    exact ⟨i, hd, hop⟩

/-- The mnemonic of a row names the commands with the opcode of the row's match. -/
theorem mnemonic_eq_iff_of_mem_opcodeRows {row : OpcodeRow} (h : row ∈ opcodeRows) (i : Instr) :
    i.mnemonic = row.mnemonic ↔ opcodeOf i = opcodeField row.pattern := by
  revert row
  cases i <;> simp only [Instr.mnemonic, opcodeOf] <;> decide

/-- The port of a row is the port that accepts the opcode of the row's match. -/
theorem accepts_iff_of_mem_opcodeRows {row : OpcodeRow} (h : row ∈ opcodeRows) (q : PortId) :
    accepts q (opcodeField row.pattern) = true ↔ q = row.port := by
  revert row
  cases q <;> decide

/-- A row's mask takes the opcode byte whole and its match asks every other masked bit to be 0. -/
theorem fields_of_mem_opcodeRows {row : OpcodeRow} (h : row ∈ opcodeRows) :
    opcodeField row.mask = BitVec.allOnes 8 ∧ operandField row.pattern = 0#32 := by
  revert row
  decide

/-- The operand bits under a row's mask, by the format of the row's opcode: S, Z or V. -/
theorem operandMask_of_mem_opcodeRows {row : OpcodeRow} (h : row ∈ opcodeRows) :
    (opcodeField row.pattern = 0x01#8 ∧ operandField row.mask = BitVec.allOnes 16 ++ 0#16) ∨
    (opcodeField row.pattern ∈ formatZOpcodes ∧ operandField row.mask = BitVec.allOnes 32) ∨
    (opcodeField row.pattern ≠ 0x01#8 ∧ opcodeField row.pattern ∉ formatZOpcodes ∧ operandField row.mask = 0#32) := by
  revert row
  decide

/-- Two words are equal when their opcodes and operands are. -/
theorem word_eq_iff {v w : CommandWord} : v = w ↔ opcodeField v = opcodeField w ∧ operandField v = operandField w := by
  constructor
  · rintro rfl
    exact ⟨rfl, rfl⟩
  · rintro ⟨hop, harg⟩
    rw [word_eq_fields v, word_eq_fields w, hop, harg]

/-- A word masked by a row is the row's match exactly when it has the row's opcode and its masked operand is 0. -/
theorem masked_eq_pattern_iff {row : OpcodeRow} (h : row ∈ opcodeRows) (w : CommandWord) :
    w &&& row.mask = row.pattern ↔
      opcodeField w = opcodeField row.pattern ∧ operandField w &&& operandField row.mask = 0#32 := by
  obtain ⟨hmask, hpattern⟩ := fields_of_mem_opcodeRows h
  have hop : opcodeField (w &&& row.mask) = opcodeField w := by
    rw [opcodeField, BitVec.extractLsb'_and, ← opcodeField, ← opcodeField, hmask, BitVec.and_allOnes]
  have harg : operandField (w &&& row.mask) = operandField w &&& operandField row.mask := BitVec.extractLsb'_and
  rw [word_eq_iff, hop, harg, hpattern]

/-- The reserved bits of format S are 0 exactly when the operand's upper half is. -/
theorem operandField_and_upper_eq_zero_iff (w : CommandWord) :
    operandField w &&& (BitVec.allOnes 16 ++ 0#16) = 0#32 ↔ rsvField w = 0#16 := by
  have hand : operandField w &&& (BitVec.allOnes 16 ++ 0#16) = rsvField w ++ 0#16 := by
    rw [operand_eq_fields, BitVec.and_append, BitVec.and_allOnes, BitVec.and_zero]
  rw [hand]
  constructor
  · intro h
    exact BitVec.extractLsb'_append_eq_left.symm.trans (congrArg (BitVec.extractLsb' 16 16) h)
  · intro h
    rw [h]
    rfl

/-- In a word with a row's opcode, the operand bits under the row's mask are the reserved bits. -/
theorem masked_operand_eq_zero_iff {row : OpcodeRow} (h : row ∈ opcodeRows) {w : CommandWord}
    (hop : opcodeField w = opcodeField row.pattern) :
    operandField w &&& operandField row.mask = 0#32 ↔ ¬ ReservedBitSet w := by
  rw [ReservedBitSet, hop]
  obtain ⟨ho, hm⟩ | ⟨ho, hm⟩ | ⟨hS, hZ, hm⟩ := operandMask_of_mem_opcodeRows h
  · rw [hm, operandField_and_upper_eq_zero_iff]
    simp [ho, formatZOpcodes]
  · have hS : opcodeField row.pattern ≠ 0x01#8 := fun e => absurd (e ▸ ho) (by decide)
    rw [hm, BitVec.and_allOnes]
    simp [ho, hS]
  · simp [hm, hS, hZ]

/-- Settles O8: both sides say that the port accepts the row's opcode, that it is the word's, and that no reserved bit is 1. -/
theorem opcodeTableDecides : Obligations.OpcodeTableDecides := by
  intro q w row h
  simp only [mnemonic_eq_iff_of_mem_opcodeRows h]
  rw [decodes_to_opcode_iff, accepts_iff_of_mem_opcodeRows h, masked_eq_pattern_iff h]
  exact and_congr_right fun _ => and_congr_right fun hop => (masked_operand_eq_zero_iff h hop).symm

/-- Settles O9: fourteen fixed words, decoded. -/
theorem workedEncodingsDecode : Obligations.WorkedEncodingsDecode := by
  unfold Obligations.WorkedEncodingsDecode
  decide

/-- R96: the word of a command at a port that is not the command's own. -/
theorem decode_encode_of_port_ne {q : PortId} {i : Instr} (h : i.port ≠ q) :
    decode q (encode i) = .error .illegalOpcode :=
  decode_of_not_accepts (by rw [encode_opcode, accepts_opcodeOf, decide_eq_false h])

end Sys2Proof

namespace Sys2Proof.Machine

/-- Settles O1: `step_of_decode_ok`. -/
theorem stepExecutesDecodedCommand : Obligations.StepExecutesDecodedCommand := fun _ _ _ _ h hd =>
  step_of_decode_ok h hd

/-- R96: a command of the data port is a PROC. -/
theorem eq_proc_of_port_dp {i : Instr} (h : i.port = .dp) : ∃ x, i = .proc x := by
  obtain hi | rfl | ⟨p, v, rfl⟩ | ⟨p, rfl⟩ := instr_cases i
  · exact hi
  · cases h
  · cases (setInstr_port p v).symm.trans h
  · cases (getInstr_port p).symm.trans h

/-- Settles O10: a command decodes at its own port (`decode_port_encode`) and only there (`port_of_decode_ok`); the step on its
word at the other port raises `ILLEGAL_OPCODE` (`decode_encode_of_port_ne`). -/
theorem wrongPortIsIllegalOpcode : Obligations.WrongPortIsIllegalOpcode := by
  refine ⟨decode_port_encode, fun w i h => eq_proc_of_port_dp (port_of_decode_ok h), fun w i h x hx => ?_,
    fun s q i rest hp hq => ?_⟩
  · subst hx
    cases port_of_decode_ok h
  · rw [step_of_decode_error hp (decode_encode_of_port_ne hq)]
    cases q <;> rfl

/-- R182: a cleared line has its cursor at 0 and reads 0 everywhere. -/
theorem clearLines_zero (ls : DelayLines) (k : LineId) :
    ((clearLines ls).line k).cur.val = 0 ∧ ∀ a, memRead (clearLines ls) k a = 0#16 := by
  refine ⟨by rw [clearLines_line, cleared_cur_val], fun a => ?_⟩
  rw [memRead, clearLines_line, cleared_mem, Memory.read_nil]
  rfl

/-- R96, R238: a command of the control port gives no response at the data port, and leaves the lines whole or clears them. -/
theorem exec_of_port_cp {i : Instr} {s t : State} (h : exec i s = .next t) (hi : i.port = .cp) :
    t.dpOut = s.dpOut ∧ (t.lines = s.lines ∨ t.lines = clearLines s.lines) := by
  obtain ⟨x, rfl, -⟩ | ⟨-, rfl⟩ | ⟨p, v, -, rfl⟩ | ⟨p, -, rfl⟩ := exec_cases h
  · cases hi
  · exact ⟨rfl, .inr (respond_lines ..)⟩
  · exact ⟨setParam_dpOut .., .inl (setParam_lines ..)⟩
  · exact ⟨getParam_dpOut .., .inl (getParam_lines ..)⟩

/-- R180: PROC changes no register and gives no response at the control port. -/
theorem exec_proc_frame {x : Sample} {s t : State} (h : exec (.proc x) s = .next t) :
    t.params = s.params ∧ t.cpOut = s.cpOut := by
  rw [exec_proc] at h
  cases h
  exact ⟨respond_params .., respond_dp_cpOut ..⟩

/-- Settles O11: an error word leaves all but its own port's responses alone, and a command is one of its port: PROC at the data
port, what `exec_of_port_cp` is about at the control port. -/
theorem portsKeepToTheirRoles : Obligations.PortsKeepToTheirRoles := by
  rintro s t ⟨q, w⟩ rest hp h
  cases hd : decode q w with
  | error e =>
    rw [step_of_decode_error hp hd] at h
    cases h
    cases q with
    | dp => exact ⟨raiseCmdError_params .., rfl, .inl (raiseCmdError_lines ..)⟩
    | cp => exact ⟨rfl, .inl (raiseCmdError_lines ..)⟩
  | ok i =>
    rw [step_of_decode_ok hp hd] at h
    have hi := port_of_decode_ok hd
    cases q with
    | dp =>
      obtain ⟨x, rfl⟩ := eq_proc_of_port_dp hi
      obtain ⟨hparams, hout⟩ := exec_proc_frame h
      exact ⟨hparams, hout, .inr ⟨x, h⟩⟩
    | cp =>
      obtain ⟨hout, hlines⟩ := exec_of_port_cp h hi
      exact ⟨hout, hlines.imp_right fun e => by rw [e]; exact clearLines_zero s.lines⟩

end Sys2Proof.Machine
end

section
/-! The Gain Stage is the exact product of the Sample and the gain, and how large it can be (R120). -/

namespace Sys2Proof.Machine

open Sys2Proof.Claims

/-- R120: the product over the denominator 1000. -/
theorem gainStage_eq_div (x : Sample) (g : ParamWord) : gainStage x g = ((x.toInt * g.toInt : Int) : Rat) / 1000 := by
  rw [gainStage_eq, numberOf, ← mul_div_assoc, Int.cast_mul]

/-- A Sample has magnitude at most `2^15` and a parameter word at most `2^31`. -/
theorem abs_sample_mul_param_le (x : Sample) (g : ParamWord) : |x.toInt * g.toInt| ≤ 2 ^ 46 := by
  have hx : |x.toInt| ≤ 2 ^ 15 := abs_le.2 ⟨sample_toInt_ge x, (sample_toInt_le x).trans (by decide)⟩
  have hg : |g.toInt| ≤ 2 ^ 31 := abs_le.2 ⟨param_toInt_ge g, (param_toInt_le g).trans (by decide)⟩
  calc |x.toInt * g.toInt| = |x.toInt| * |g.toInt| := abs_mul ..
    _ ≤ 2 ^ 15 * 2 ^ 31 := mul_le_mul hx hg (abs_nonneg _) (by decide)
    _ = 2 ^ 46 := by decide

/-- R120: the largest magnitude of the Gain Stage. -/
theorem abs_gainStage_le (x : Sample) (g : ParamWord) : |gainStage x g| ≤ 2 ^ 46 / 1000 := by
  have h : |((x.toInt * g.toInt : Int) : Rat)| ≤ 2 ^ 46 := mod_cast abs_sample_mul_param_le x g
  rw [gainStage_eq_div, abs_div, abs_of_pos (by decide : (0 : Rat) < 1000)]
  exact div_le_div_of_nonneg_right h (by decide)

/-- R120: gain 1000 is unity. -/
theorem gainStage_unity (x : Sample) : gainStage x 1000#32 = (x.toInt : Rat) := by
  have h : (1000#32).toInt = 1000 := by decide
  rw [gainStage_eq, numberOf, h, Int.cast_ofNat, div_self (by decide), mul_one]

/-- R120: gain 0 mutes. -/
theorem gainStage_mute (x : Sample) : gainStage x 0#32 = 0 := by
  have h : (0#32).toInt = 0 := by decide
  rw [gainStage_eq, numberOf, h, Int.cast_zero, zero_div, mul_zero]

/-- Settles O20: a quotient by 1000 (`gainStage_eq_div`), so the two least words give the bound itself. -/
theorem gainStageIsExactProduct : Obligations.GainStageIsExactProduct := by
  refine ⟨fun x g => ⟨gainStage_eq x g, ?_, abs_gainStage_le x g⟩, fun x => ⟨gainStage_unity x, gainStage_mute x⟩, ?_⟩
  · rw [gainStage_eq_div, div_mul_cancel₀ _ (by decide)]
  · have h : (BitVec.ofInt 16 (-32768)).toInt * (BitVec.ofInt 32 (-2147483648)).toInt = 2 ^ 46 := by decide
    rw [gainStage_eq_div, h, Int.cast_pow, Int.cast_ofNat]

end Sys2Proof.Machine
end

section
/-! What PROC reads: of the delay lines, the words at the cursors of the active lines and nothing else (R70, R132, R151); so a
bypassed bank is unobservable, and so is the absolute position of a cursor (R138). -/

namespace Sys2Proof.Machine

open Sys2Proof.Claims

/-- Two records of lines hold the same word at the cursor of every line that is active under these parameters. -/
def SameActiveWords (ps : EffectParams) (ls ms : DelayLines) : Prop :=
  ∀ k, levelOf k ps ≠ 0#32 → dlRead ls k = dlRead ms k

variable {ps : EffectParams} {ls ms : DelayLines}

/-- R130, R132: the reverb stage's value is read from the bank only when REVERB is not 0. -/
theorem reverbStage_value_congr (h : SameActiveWords ps ls ms) (tie : Tie) (s0 : Rat) :
    (reverbStage tie s0 ps.reverb ls).2 = (reverbStage tie s0 ps.reverb ms).2 := by
  rw [reverbStage_value, reverbStage_value]
  by_cases hr : ps.reverb = 0#32
  · rw [if_pos hr, if_pos hr]
  · have hwords : ∀ k ∈ Config.bank, (dlRead ls k).toInt = (dlRead ms k).toInt := fun k hk => by
      rw [h k (by rwa [levelOf_of_ne_echo (mem_bank_iff.1 hk)])]
    rw [List.map_congr_left hwords]

/-- R150, R151: the echo stage's value is read from the echo line only when ECHO is not 0. -/
theorem echoStage_value_congr (h : SameActiveWords ps ls ms) (tie : Tie) (s1 : Rat) :
    (echoStage tie s1 ps.echo ls).2 = (echoStage tie s1 ps.echo ms).2 := by
  rw [echoStage_value, echoStage_value]
  by_cases he : ps.echo = 0#32
  · rw [if_pos he, if_pos he]
  · rw [h .echo he]

/-- R180: the output Sample of PROC depends on the lines through the active words only. -/
theorem procExact_output_congr (h : SameActiveWords ps ls ms) (tie : Tie) (x : Sample) :
    (procExact tie x ps ls).2 = (procExact tie x ps ms).2 := by
  rw [procExact_output, procExact_output, reverbStage_value_congr h, echoStage_value_congr h]

/-- R131, R150: so does the word PROC pushes onto an active line. -/
theorem procExact_push_congr (h : SameActiveWords ps ls ms) (tie : Tie) (x : Sample) {k : LineId}
    (hk : levelOf k ps ≠ 0#32) :
    ∃ v, (procExact tie x ps ls).1.line k = (ls.line k).push v ∧ (procExact tie x ps ms).1.line k = (ms.line k).push v := by
  rw [procExact_line, procExact_line, reverbStage_value_congr h, h k hk]
  by_cases he : k = .echo
  · subst he
    rw [levelOf_echo] at hk
    simp only [if_true, if_neg hk]
    exact ⟨_, rfl, rfl⟩
  · rw [levelOf_of_ne_echo he] at hk
    simp only [if_neg he, if_neg hk]
    exact ⟨_, rfl, rfl⟩

/-- A line that two records hold alike is alike in them after a PROC, when the active words are. -/
theorem procExact_line_congr (h : SameActiveWords ps ls ms) (tie : Tie) (x : Sample) {k : LineId}
    (hk : ls.line k = ms.line k) : (procExact tie x ps ls).1.line k = (procExact tie x ps ms).1.line k := by
  by_cases hlevel : levelOf k ps = 0#32
  · rw [procExact_line_bypassed _ _ _ hlevel, procExact_line_bypassed _ _ _ hlevel, hk]
  · obtain ⟨v, hl, hm⟩ := procExact_push_congr h tie x hlevel
    rw [hl, hm, hk]

end Sys2Proof.Machine
end

section
/-! The reverb stage: its sum, the order of its lines, and its bypass (R132, R133, R134). -/

namespace Sys2Proof.Machine

open Sys2Proof.Claims

/-- R39: a word at a cursor is a Sample. -/
theorem oldWord_bounds (ls : DelayLines) (k : LineId) : -32768 ≤ oldWord ls k ∧ oldWord ls k ≤ 32767 :=
  ⟨sample_toInt_ge _, sample_toInt_le _⟩

/-- R133: eight words, each in the range of a Sample. -/
theorem oldSum_bounds (ls : DelayLines) : -262144 ≤ oldSum ls ∧ oldSum ls ≤ 262136 := by
  have h0 := oldWord_bounds ls .rv0
  have h1 := oldWord_bounds ls .rv1
  have h2 := oldWord_bounds ls .rv2
  have h3 := oldWord_bounds ls .rv3
  have h4 := oldWord_bounds ls .rv4
  have h5 := oldWord_bounds ls .rv5
  have h6 := oldWord_bounds ls .rv6
  have h7 := oldWord_bounds ls .rv7
  unfold oldSum
  omega

/-- Settles O28: `combLoop_sum` over the bank, and `oldSum_bounds`. -/
theorem reverbSumRange : Obligations.ReverbSumRange := fun tie s0 ls =>
  ⟨by rw [combLoop_sum _ _ bank_nodup, bank_sum_eq_oldSum, zero_add], oldSum_bounds ls⟩

/-- R134: the comb loop gives the same lines and sum over the same lines in another order. -/
theorem combLoop_perm (tie : Tie) (s0 : Rat) {ks js : List LineId} (h : ks.Perm js) (hnd : js.Nodup) (ls : DelayLines)
    (acc : Int) : combLoop tie s0 ks ls acc = combLoop tie s0 js ls acc := by
  have hnd' : ks.Nodup := h.nodup_iff.2 hnd
  refine Prod.ext (lines_ext fun k => ?_) ?_
  · by_cases hk : k ∈ js
    · rw [combLoop_line_mem _ _ hnd' _ _ (h.mem_iff.2 hk), combLoop_line_mem _ _ hnd _ _ hk]
    · rw [combLoop_line_not_mem _ _ _ _ (mt h.mem_iff.1 hk), combLoop_line_not_mem _ _ _ _ hk]
  · rw [combLoop_sum _ _ hnd', combLoop_sum _ _ hnd, (h.map _).sum_eq]

/-- Settles O29: `combLoop_perm` at the bank; the capacities are constants. -/
theorem reverbLineOrderIsIrrelevant : Obligations.ReverbLineOrderIsIrrelevant :=
  ⟨fun tie s0 ls _ h => combLoop_perm tie s0 h bank_nodup ls 0, rfl⟩

/-- R132, R151: PROCs leave a line whole whose level is 0. -/
theorem execAll_process_line_bypassed {k : LineId} {xs : List Sample} {s t : State} (hk : levelOf k s.params = 0#32)
    (h : execAll (process xs) s = .next t) : t.lines.line k = s.lines.line k := by
  induction xs generalizing s with
  | nil => cases h; rfl
  | cons x xs ih =>
    rw [process, List.map_cons, execAll_cons_next (exec_proc x s)] at h
    rw [ih (by rwa [respond_params]) h, respond_lines, procExact_line_bypassed _ _ _ hk]

/-- PROCs read only the lines `K`, when every active line is one of these: from states that hold them alike, they give the same
responses and leave states that hold them alike. -/
theorem execAll_process_congr {K : LineId → Prop} {xs : List Sample} {s t : State} {ls : DelayLines}
    (hK : ∀ k, levelOf k s.params ≠ 0#32 → K k) (hls : ∀ k, K k → ls.line k = s.lines.line k)
    (h : execAll (process xs) s = .next t) :
    ∃ ms, execAll (process xs) { s with lines := ls } = .next { t with lines := ms } ∧
      ∀ k, K k → ms.line k = t.lines.line k := by
  induction xs generalizing s ls with
  | nil => cases h; exact ⟨ls, rfl, hls⟩
  | cons x xs ih =>
    have hwords : SameActiveWords s.params ls s.lines := fun k hk => by rw [dlRead, dlRead, hls k (hK k hk)]
    rw [process, List.map_cons, execAll_cons_next (exec_proc x s)] at h
    rw [process, List.map_cons, execAll_cons_next (exec_proc x _), procExact_output_congr hwords]
    exact ih (by rwa [respond_params]) (fun k hk => procExact_line_congr hwords _ _ (hls k hk)) h

/-- Settles O25: the bypassed stage returns its arguments, the bank's lines are bypassed (`execAll_process_line_bypassed`), and
the echo line is the only one that can be active (`execAll_process_congr`). -/
theorem reverbBypassFreezesBank : Obligations.ReverbBypassFreezesBank := by
  refine ⟨fun tie s0 ls => if_pos rfl, fun xs s hr => ?_⟩
  obtain ⟨t, ht⟩ := execAll_next (process xs) s
  have hbank : ∀ k, k ≠ .echo → levelOf k s.params = 0#32 := fun k hk => (levelOf_of_ne_echo hk _).trans hr
  refine ⟨t, ht, fun k hk => execAll_process_line_bypassed (hbank k hk) ht, fun ls hecho => ?_⟩
  obtain ⟨ms, hu, hms⟩ := execAll_process_congr (K := (· = .echo)) (fun k => not_imp_comm.1 (hbank k))
    (by rintro k rfl; exact hecho) ht
  exact ⟨_, hu, rfl, hms .echo rfl⟩

end Sys2Proof.Machine
end

section
/-! Half a word rounded: what the feedback of the reverb does to a word when nothing is fed in, and where repeating it ends
(R131, R137, R166). -/

namespace Sys2Proof.Machine

open Sys2Proof.Claims

/-! One halving. -/

theorem floor_half (d : Int) : ((d : Rat) * (1 / 2)).floor = d / 2 := by
  rw [mul_one_div]
  exact_mod_cast Rat.floor_intCast_div_natCast d 2

theorem half_sub_floor (d : Int) : (d : Rat) * (1 / 2) - ((d / 2 : Int) : Rat) = ((d % 2 : Int) : Rat) * (1 / 2) := by
  have hd : ((2 * (d / 2) + d % 2 : Int) : Rat) = d := by rw [Int.mul_ediv_add_emod]
  push_cast at hd
  linarith

/-- R166: half an even integer is exact, half an odd one is a tie. -/
theorem round_half (tie : Tie) (d : Int) :
    round tie ((d : Rat) * (1 / 2)) = if d % 2 = 0 then d / 2 else roundHalfway tie (d / 2) (decide (0 < d)) := by
  have hpos : 0 < (d : Rat) * (1 / 2) ↔ 0 < d := by simp
  simp only [round, floor_half, half_sub_floor, hpos]
  obtain h | h := Int.emod_two_eq d <;> simp [h]

theorem roundHalfway_bounds (tie : Tie) (f : Int) (b : Bool) : f ≤ roundHalfway tie f b ∧ roundHalfway tie f b ≤ f + 1 := by
  cases tie with
  | halfUp => simp [roundHalfway]
  | halfAway => cases b <;> simp [roundHalfway]
  | halfEven => unfold roundHalfway; dsimp only; split_ifs <;> omega

/-- R166: half an integer rounds to one of the two integers next to it. -/
theorem round_half_bounds (tie : Tie) (d : Int) :
    d / 2 ≤ round tie ((d : Rat) * (1 / 2)) ∧ round tie ((d : Rat) * (1 / 2)) ≤ (d + 1) / 2 := by
  rw [round_half]
  split_ifs with h
  · omega
  · have := roundHalfway_bounds tie (d / 2) (decide (0 < d))
    omega

section OneHalving

variable {d : Int} (hlo : -32768 ≤ d) (hhi : d ≤ 32768)
include hlo hhi

/-- R165: half a word is never clamped. -/
theorem combDecay_eq_round (tie : Tie) : combDecay tie d = round tie ((d : Rat) * (1 / 2)) := by
  obtain ⟨h1, h2⟩ := round_half_bounds tie d
  rw [combDecay, satInt, Config.smin, Config.smax, if_neg (by omega), if_neg (by omega)]

theorem combDecay_bounds (tie : Tie) : d / 2 ≤ combDecay tie d ∧ combDecay tie d ≤ (d + 1) / 2 := by
  rw [combDecay_eq_round hlo hhi]
  exact round_half_bounds tie d

theorem combDecay_halfUp : combDecay .halfUp d = (d + 1) / 2 := by
  rw [combDecay_eq_round hlo hhi, round_half, roundHalfway]
  split_ifs <;> omega

theorem combDecay_halfAway : combDecay .halfAway d = if 0 < d then (d + 1) / 2 else d / 2 := by
  rw [combDecay_eq_round hlo hhi, round_half, roundHalfway]
  simp only [decide_eq_true_eq]
  split_ifs <;> omega

end OneHalving

theorem combDecay_zero (tie : Tie) : combDecay tie 0 = 0 := by
  have := combDecay_bounds (d := 0) (by decide) (by decide) tie
  omega

theorem combDecay_halfEven_of_small {d : Int} (hlo : -1 ≤ d) (hhi : d ≤ 1) : combDecay .halfEven d = 0 := by
  rw [combDecay_eq_round (by omega) (by omega), round_half, roundHalfway]
  split_ifs <;> omega

/-! Repeated halving. -/

section Repeated

variable {d : Int} {n : Nat} (hlo : -32768 ≤ d) (hhi : d ≤ 32768)
include hlo hhi

/-- Under every TIE each halving takes the magnitude at least halfway to 1. -/
theorem iterate_combDecay_bounds (tie : Tie) (n : Nat) :
    -(1 + (32767 / 2 ^ n : Nat)) ≤ (combDecay tie)^[n] d ∧ (combDecay tie)^[n] d ≤ 1 + (32767 / 2 ^ n : Nat) := by
  induction n with
  | zero => simpa using ⟨hlo, hhi⟩
  | succ n ih =>
    have hq : 32767 / 2 ^ n ≤ 32767 := Nat.div_le_self ..
    rw [Function.iterate_succ_apply', pow_succ, ← Nat.div_div_eq_div_mul]
    have := combDecay_bounds (d := (combDecay tie)^[n] d) (by omega) (by omega) tie
    omega

/-- R137: fifteen halvings of a word leave at most a magnitude of 1. -/
theorem iterate_combDecay_small (tie : Tie) (hn : 15 ≤ n) : -1 ≤ (combDecay tie)^[n] d ∧ (combDecay tie)^[n] d ≤ 1 := by
  have hpow : 2 ^ 15 ≤ 2 ^ n := Nat.pow_le_pow_right (by decide) hn
  have hq : 32767 / 2 ^ n = 0 := Nat.div_eq_of_lt (by omega)
  simpa [hq] using iterate_combDecay_bounds hlo hhi tie n

/-- R137: under `half_even` every word ends at 0. -/
theorem iterate_combDecay_halfEven (hn : 16 ≤ n) : (combDecay .halfEven)^[n] d = 0 := by
  obtain ⟨m, rfl⟩ := Nat.exists_eq_add_of_le' (show 1 ≤ n by omega)
  obtain ⟨h1, h2⟩ := iterate_combDecay_small hlo hhi .halfEven (n := m) (by omega)
  rw [Function.iterate_succ_apply', combDecay_halfEven_of_small h1 h2]

end Repeated

/-! The sign of a word under `half_up` and `half_away`. -/

/-- A positive word stays positive. -/
theorem mapsTo_combDecay_pos {tie : Tie} (ht : tie ≠ .halfEven) :
    Set.MapsTo (combDecay tie) (Set.Ioc 0 32768) (Set.Ioc 0 32768) := by
  rintro d ⟨hpos, hhi⟩
  have hd : combDecay tie d = (d + 1) / 2 := by
    cases tie with
    | halfUp => exact combDecay_halfUp (by omega) hhi
    | halfAway => rw [combDecay_halfAway (by omega) hhi, if_pos hpos]
    | halfEven => exact absurd rfl ht
  rw [hd, Set.mem_Ioc]
  omega

/-- A word that is not positive stays so. -/
theorem mapsTo_combDecay_halfUp_nonpos : Set.MapsTo (combDecay .halfUp) (Set.Icc (-32768) 0) (Set.Icc (-32768) 0) := by
  rintro d ⟨hlo, hneg⟩
  rw [combDecay_halfUp hlo (by omega), Set.mem_Icc]
  omega

/-- A negative word stays negative. -/
theorem mapsTo_combDecay_halfAway_neg : Set.MapsTo (combDecay .halfAway) (Set.Ico (-32768) 0) (Set.Ico (-32768) 0) := by
  rintro d ⟨hlo, hneg⟩
  rw [combDecay_halfAway hlo (by omega), if_neg (by omega), Set.mem_Ico]
  omega

/-- R137: under `half_up` and under `half_away` a positive word ends at 1. -/
theorem iterate_combDecay_of_pos {tie : Tie} (ht : tie ≠ .halfEven) {d : Int} {n : Nat} (hpos : 0 < d) (hhi : d ≤ 32768)
    (hn : 15 ≤ n) : (combDecay tie)^[n] d = 1 := by
  obtain ⟨hpos', -⟩ := (mapsTo_combDecay_pos ht).iterate n ⟨hpos, hhi⟩
  have hsmall := iterate_combDecay_small (by omega) hhi tie hn
  omega

/-- R137: under `half_up` a word that is not positive ends at 0. -/
theorem iterate_combDecay_halfUp_of_nonpos {d : Int} {n : Nat} (hlo : -32768 ≤ d) (hneg : d ≤ 0) (hn : 16 ≤ n) :
    (combDecay .halfUp)^[n] d = 0 := by
  obtain ⟨m, rfl⟩ := Nat.exists_eq_add_of_le' (show 1 ≤ n by omega)
  obtain ⟨-, hneg'⟩ := mapsTo_combDecay_halfUp_nonpos.iterate m ⟨hlo, hneg⟩
  have hsmall := iterate_combDecay_small hlo (by omega) .halfUp (n := m) (by omega)
  rw [Function.iterate_succ_apply', combDecay_halfUp (by omega) (by omega)]
  omega

/-- R137: under `half_away` a negative word ends at -1. -/
theorem iterate_combDecay_halfAway_of_neg {d : Int} {n : Nat} (hlo : -32768 ≤ d) (hneg : d < 0) (hn : 15 ≤ n) :
    (combDecay .halfAway)^[n] d = -1 := by
  obtain ⟨-, hneg'⟩ := mapsTo_combDecay_halfAway_neg.iterate n ⟨hlo, hneg⟩
  have hsmall := iterate_combDecay_small hlo (by omega) .halfAway hn
  omega

/-! A PROC that feeds nothing in. -/

/-- R131: with `s0 = 0` a PROC replaces the word at the cursor of each reverb line by its decayed value, leaves the line's other
words and advances the line. -/
theorem exec_proc_of_zero_input {x : Sample} {s : State} (hr : s.params.reverb ≠ 0#32)
    (h0 : (x.toInt : Rat) * numberOf s.params.gain = 0) : ∃ t, exec (.proc x) s = .next t ∧ ∀ k, k ≠ .echo →
      (t.lines.line k).cur.val = ((s.lines.line k).cur.val + 1) % Config.cap k ∧
      ∀ a, (memRead t.lines k a).toInt =
        if a = (s.lines.line k).cur then combDecay s.cfg.tie (oldWord s.lines k) else (memRead s.lines k a).toInt := by
  obtain ⟨t, ht, hbank, -⟩ := procWritesOneWordPerActiveLine x s
  refine ⟨t, ht, fun k hk => ?_⟩
  simpa only [h0, zero_add, combDecay] using hbank k hk hr

/-- Settles O31: one PROC by `exec_proc_of_zero_input`, and where repeated halving ends, by TIE and by the sign of the word. -/
theorem reverbWordsKeepResidue : Obligations.ReverbWordsKeepResidue := by
  refine ⟨fun x s hr h0 => ?_, fun d n hlo hhi hn => ⟨?_, ?_, ?_⟩, ?_, ?_⟩
  · obtain ⟨t, ht, hbank⟩ := exec_proc_of_zero_input hr h0
    refine ⟨t, ht, fun k hk => ?_⟩
    rw [(hbank k hk).2, if_pos rfl]
  · split_ifs with hpos
    · exact iterate_combDecay_of_pos (by decide) hpos (by omega) (by omega)
    · exact iterate_combDecay_halfUp_of_nonpos hlo (by omega) hn
  · split_ifs with hpos hneg
    · exact iterate_combDecay_of_pos (by decide) hpos (by omega) (by omega)
    · exact iterate_combDecay_halfAway_of_neg hlo hneg (by omega)
    · obtain rfl : d = 0 := by omega
      exact Function.iterate_fixed (combDecay_zero _) n
  · exact iterate_combDecay_halfEven hlo (by omega) hn
  · simp (disch := decide) [decaySeries, combDecay_halfUp]
  · simp (disch := decide) [decaySeries, combDecay_halfUp]

end Sys2Proof.Machine
end

section
/-! The absolute position of a cursor is unobservable (R138). -/

namespace Sys2Proof.Machine

open Sys2Proof.Claims

/-! One line. -/

theorem sameFromCursor_readAtCursor {cap : Nat} {l m : DelayLine cap} (h : sameFromCursor l m) :
    l.readAtCursor = m.readAtCursor := by
  simpa [DelayLine.readAtCursor, Nat.mod_eq_of_lt] using h 0

/-- After a push, the words from the cursor onward: the one pushed is the last, and the others have moved up by one. -/
theorem push_read_from_cursor {cap : Nat} (l : DelayLine cap) (v : Sample) (j : Nat) :
    (l.push v).mem.read (((l.push v).cur.val + j) % cap) =
      if cap ∣ j + 1 then v else l.mem.read ((l.cur.val + (j + 1)) % cap) := by
  have hindex : ((l.push v).cur.val + j) % cap = (l.cur.val + (j + 1)) % cap := by
    rw [push_cur, nextCursor_val, Nat.mod_add_mod, Nat.add_assoc, Nat.add_comm 1]
  have hlast : (l.cur.val + (j + 1)) % cap = l.cur.val ↔ cap ∣ j + 1 := by
    rw [← Nat.add_modEq_left_iff (a := l.cur.val), Nat.ModEq, Nat.mod_eq_of_lt l.cur.isLt]
  simp only [hindex, push_read, hlast]

theorem sameFromCursor_push {cap : Nat} {l m : DelayLine cap} (h : sameFromCursor l m) (v : Sample) :
    sameFromCursor (l.push v) (m.push v) := fun j => by
  rw [push_read_from_cursor, push_read_from_cursor, h]

theorem sameFromCursor_of_zero {cap : Nat} {l m : DelayLine cap} (hl : ∀ a, l.mem.read a = 0#16)
    (hm : ∀ a, m.mem.read a = 0#16) : sameFromCursor l m := fun _ => (hl _).trans (hm _).symm

theorem sameFromCursor_cleared {cap : Nat} (l m : DelayLine cap) : sameFromCursor l.cleared m.cleared :=
  sameFromCursor_of_zero (fun _ => rfl) fun _ => rfl

/-! One command and one step. -/

section Related

variable {s t : State}

/-- R180: a PROC on two states that differ at most in where the cursors stand gives one output Sample, and lines that differ
again at most so. -/
theorem RotationOf.procExact (h : RotationOf s t) (x : Sample) :
    (procExact s.cfg.tie x s.params s.lines).2 = (procExact t.cfg.tie x t.params t.lines).2 ∧
      ∀ k, sameFromCursor ((procExact s.cfg.tie x s.params s.lines).1.line k)
        ((procExact t.cfg.tie x t.params t.lines).1.line k) := by
  rw [← h.params, ← h.cfg]
  have hwords : SameActiveWords s.params s.lines t.lines := fun k _ => sameFromCursor_readAtCursor (h.lines k)
  refine ⟨procExact_output_congr hwords _ x, fun k => ?_⟩
  by_cases hk : levelOf k s.params = 0#32
  · rw [procExact_line_bypassed _ _ _ hk, procExact_line_bypassed _ _ _ hk]
    exact h.lines k
  · obtain ⟨v, hs, ht⟩ := procExact_push_congr hwords s.cfg.tie x hk
    rw [hs, ht]
    exact sameFromCursor_push (h.lines k) v

theorem RotationOf.giveResponse (h : RotationOf s t) (q : PortId) (r : ResponseWord) :
    RotationOf (giveResponse q r s) (giveResponse q r t) := by
  obtain ⟨hlines, hparams, hcfg, hpending, hdp, hcp⟩ := h
  cases q with
  | dp => exact ⟨hlines, hparams, hcfg, hpending, congrArg (· ++ [r]) hdp, hcp⟩
  | cp => exact ⟨hlines, hparams, hcfg, hpending, hdp, congrArg (· ++ [r]) hcp⟩

theorem RotationOf.respond (h : RotationOf s t) (q : PortId) {d e : BitVec 32} (hd : d = e) :
    RotationOf (respond q d s) (respond q e t) := by
  subst hd
  exact h.giveResponse q _

theorem RotationOf.withLines (h : RotationOf s t) {ls ms : DelayLines} (hl : ∀ k, sameFromCursor (ls.line k) (ms.line k)) :
    RotationOf { s with lines := ls } { t with lines := ms } := ⟨hl, h.params, h.cfg, h.pending, h.dpOut, h.cpOut⟩

theorem RotationOf.withParams (h : RotationOf s t) {ps qs : EffectParams} (hp : ps = qs) :
    RotationOf { s with params := ps } { t with params := qs } := ⟨h.lines, hp, h.cfg, h.pending, h.dpOut, h.cpOut⟩

theorem RotationOf.withPending (h : RotationOf s t) (l : List Presented) :
    RotationOf { s with pending := l } { t with pending := l } := ⟨h.lines, h.params, h.cfg, rfl, h.dpOut, h.cpOut⟩

/-- A command answers alike on two states that differ at most in where the cursors stand, and leaves two such states. -/
theorem RotationOf.exec (h : RotationOf s t) (i : Instr) :
    ∃ s' t', exec i s = .next s' ∧ exec i t = .next t' ∧ RotationOf s' t' := by
  obtain ⟨x, rfl⟩ | rfl | ⟨p, v, rfl⟩ | ⟨p, rfl⟩ := instr_cases i
  · obtain ⟨hout, hlines⟩ := h.procExact x
    exact ⟨_, _, exec_proc x s, exec_proc x t, (h.withLines hlines).respond .dp (congrArg sampleData hout)⟩
  · refine ⟨_, _, exec_reset s, exec_reset t, (h.withLines fun k => ?_).respond .cp rfl⟩
    rw [clearLines_line, clearLines_line]
    exact sameFromCursor_cleared _ _
  · have hstored : accepted s.cfg.oor p (readParam s.params p) v = accepted t.cfg.oor p (readParam t.params p) v := by
      rw [h.cfg, h.params]
    exact ⟨_, _, exec_setInstr p v s, exec_setInstr p v t, (h.withParams (by rw [hstored, h.params])).respond .cp hstored⟩
  · exact ⟨_, _, exec_getInstr p s, exec_getInstr p t, h.respond .cp (by rw [h.params])⟩

theorem RotationOf.step (h : RotationOf s t) : ∃ s' t', step s = .next s' ∧ step t = .next t' ∧ RotationOf s' t' := by
  cases hs : s.pending with
  | nil => exact ⟨s, t, step_of_pending_nil hs, step_of_pending_nil (h.pending ▸ hs), h⟩
  | cons c rest =>
    have ht : t.pending = c :: rest := h.pending ▸ hs
    cases hd : decode c.port c.word with
    | ok i => rw [step_of_decode_ok hs hd, step_of_decode_ok ht hd]; exact (h.withPending rest).exec i
    | error e => exact ⟨_, _, step_of_decode_error hs hd, step_of_decode_error ht hd, (h.withPending rest).giveResponse ..⟩

theorem RotationOf.runSteps (h : RotationOf s t) (n : Nat) :
    ∃ s' t', runSteps n s = .next s' ∧ runSteps n t = .next t' ∧ RotationOf s' t' := by
  induction n generalizing s t with
  | zero => exact ⟨s, t, rfl, rfl, h⟩
  | succ n ih =>
    obtain ⟨s', t', hs, ht, h'⟩ := h.step
    rw [runSteps_succ_next hs, runSteps_succ_next ht]
    exact ih h'

end Related

/-- R138, R131: a PROC of silence on a reverb line of zeros pushes 0. -/
theorem exec_proc_zero_on_zero_line {s : State} (hr : s.params.reverb ≠ 0#32) : ∃ t, exec (.proc 0#16) s = .next t ∧
    ∀ k, k ≠ .echo → (∀ a, memRead s.lines k a = 0#16) → (∀ a, memRead t.lines k a = 0#16) ∧
      (t.lines.line k).cur.val = ((s.lines.line k).cur.val + 1) % Config.cap k := by
  obtain ⟨t, ht, hbank⟩ := exec_proc_of_zero_input (x := 0#16) hr (by simp)
  refine ⟨t, ht, fun k hk hzero => ⟨fun a => BitVec.eq_of_toInt_eq ?_, (hbank k hk).1⟩⟩
  have hold : oldWord s.lines k = 0 := by rw [oldWord, hzero]; rfl
  rw [(hbank k hk).2, hold, combDecay_zero, hzero]
  exact ite_self _

/-- Settles O49: a run keeps `RotationOf` step by step, the lines of zeros are alike at all cursors, and silence keeps one. -/
theorem rotationIsUnobservable : Obligations.RotationIsUnobservable := by
  refine ⟨fun n s t h => h.runSteps n, fun cap l m => sameFromCursor_of_zero, fun s k hk hr hzero => ?_⟩
  obtain ⟨t, ht, hline⟩ := exec_proc_zero_on_zero_line hr
  exact ⟨t, ht, hline k hk hzero⟩

end Sys2Proof.Machine
end

section
/-! The echo stage with ECHO 0 (R151). -/

namespace Sys2Proof.Machine

open Sys2Proof.Claims

/-- Settles O26: the bypassed stage returns its arguments, the echo line is bypassed (`execAll_process_line_bypassed`), and every
line that can be active is another one (`execAll_process_congr`). -/
theorem echoBypassFreezesLine : Obligations.EchoBypassFreezesLine := by
  refine ⟨fun tie s1 ls => if_pos rfl, fun xs s he => ?_⟩
  obtain ⟨t, ht⟩ := execAll_next (process xs) s
  have hecho : levelOf .echo s.params = 0#32 := (levelOf_echo _).trans he
  refine ⟨t, ht, execAll_process_line_bypassed hecho ht, fun ls hbank => ?_⟩
  obtain ⟨ms, hu, hms⟩ := execAll_process_congr (K := (· ≠ .echo)) (fun k hk => by rintro rfl; exact hk hecho) hbank ht
  exact ⟨_, hu, rfl, hms⟩

end Sys2Proof.Machine
end

section
/-! Rounding off the halfway points, and two fifths of a word rounded: what the feedback of the echo does to a word when nothing
is fed in (R150, R154, R166). -/

namespace Sys2Proof.Machine

open Sys2Proof.Claims

/-- R166: under every TIE, an integer less than one half away is the one taken. -/
theorem round_eq_of_abs_sub_lt (tie : Tie) {v : Rat} {n : Int} (h : |v - n| < 1 / 2) : round tie v = n := by
  obtain ⟨hlo, hhi⟩ := abs_lt.1 h
  obtain hn | hn := le_or_gt (n : Rat) v
  · have hfloor : v.floor = n := Int.floor_eq_iff.2 ⟨hn, by linarith⟩
    simp only [round, hfloor, if_pos hhi]
  · have hfloor : v.floor = n - 1 :=
      (Int.floor_eq_iff (a := v)).2 ⟨by push_cast; linarith, by push_cast; linarith⟩
    simp only [round, hfloor, Int.cast_sub, Int.cast_one]
    rw [if_neg (by linarith), if_pos (by linarith), sub_add_cancel]

/-- R165: SAT is the identity on the Sample range. -/
theorem satInt_intCast (tie : Tie) {n : Int} (hlo : -32768 ≤ n) (hhi : n ≤ 32767) : satInt tie (n : Rat) = n := by
  have hround : round tie (n : Rat) = n := round_eq_of_abs_sub_lt tie (by simp)
  rw [satInt, hround, Config.smin, Config.smax, if_neg (by omega), if_neg (by omega)]

theorem satInt_zero (tie : Tie) : satInt tie 0 = 0 := satInt_intCast tie (n := 0) (by decide) (by decide)

/-- R154: two fifths of an integer is never halfway: ten times its distance from an integer is even, and so not 5. -/
theorem round_two_fifths (tie : Tie) (p : Int) : round tie ((p : Rat) * (2 / 5)) = (4 * p + 5) / 10 := by
  have hnear : |4 * p - 10 * ((4 * p + 5) / 10)| < 5 := abs_lt.2 ⟨by omega, by omega⟩
  have hcast : |4 * (p : Rat) - 10 * ((4 * p + 5) / 10 : Int)| < 5 := mod_cast hnear
  refine round_eq_of_abs_sub_lt tie ?_
  rw [abs_lt] at hcast ⊢
  constructor <;> linarith

/-- R154: the decay in integers, the same for every TIE. -/
theorem echoDecay_eq (tie : Tie) (p : Int) : echoDecay tie p = max (-32768) (min 32767 ((4 * p + 5) / 10)) := by
  rw [echoDecay, satInt, round_two_fifths, Config.smin, Config.smax]
  split_ifs <;> omega


theorem echoDecay_monotone (tie : Tie) : Monotone (echoDecay tie) := fun p q h => by
  rw [echoDecay_eq, echoDecay_eq]
  omega

/-- R165: two fifths of a word is never clamped. -/
theorem echoDecay_of_mem (tie : Tie) {p : Int} (hlo : -32768 ≤ p) (hhi : p ≤ 32768) : echoDecay tie p = (4 * p + 5) / 10 := by
  rw [echoDecay_eq]
  omega

/-- R154: the decay of a negative word mirrors that of the positive one. -/
theorem echoDecay_neg (tie : Tie) {p : Int} (hlo : -32768 ≤ p) (hhi : p ≤ 32768) : echoDecay tie (-p) = -echoDecay tie p := by
  rw [echoDecay_eq, echoDecay_eq]
  omega

/-- R154: the decay is monotone, and thirteen passes take both ends of the Sample range to 0. -/
theorem iterate_echoDecay_eq_zero (tie : Tie) {p : Int} (hlo : -32768 ≤ p) (hhi : p ≤ 32767) :
    (echoDecay tie)^[13] p = 0 := by
  have hmono := (echoDecay_monotone tie).iterate 13
  have hleast : (echoDecay tie)^[13] (-32768) = 0 := by simp (disch := decide) [Function.iterate_succ_apply, echoDecay_of_mem]
  have hgreatest : (echoDecay tie)^[13] 32767 = 0 := by simp (disch := decide) [Function.iterate_succ_apply, echoDecay_of_mem]
  exact le_antisymm ((hmono hhi).trans_eq hgreatest) (hleast.symm.trans_le (hmono hlo))

/-- Settles O30: one PROC by what it writes to the echo line, and the decay in integers (`echoDecay_eq`). -/
theorem echoWordsDecayToZero : Obligations.EchoWordsDecayToZero := by
  refine ⟨fun x s he h1 => ?_, fun tie tie' p => ?_, fun tie p => iterate_echoDecay_eq_zero tie,
    fun tie p => echoDecay_neg tie, fun tie => ⟨?_, ?_⟩⟩
  · obtain ⟨t, ht, -, hecho, -⟩ := procWritesOneWordPerActiveLine x s
    refine ⟨t, ht, ?_⟩
    rw [(hecho he).2, if_pos rfl, h1, zero_add, echoDecay]
  · rw [echoDecay_eq, echoDecay_eq]
  · simp (disch := decide) [decaySeries, echoDecay_of_mem]
  · simp (disch := decide) [decaySeries, echoDecay_of_mem]

end Sys2Proof.Machine
end

section
/-! The echo's response to an impulse: one word that is not 0 goes round the echo line, and is heard and decays once a lap
(R150, R152, R153). -/

namespace Sys2Proof.Machine

open Sys2Proof.Claims

/-! A line with one word that is not 0. -/

/-- The word `d` places ahead of the cursor is `q`, and every other word of the line is 0. -/
def LoneWord {cap : Nat} (l : DelayLine cap) (d : Nat) (q : Int) : Prop :=
  ∀ j < cap, (l.mem.read ((l.cur.val + j) % cap)).toInt = if j = d then q else 0

theorem loneWord_of_zero {cap : Nat} {l : DelayLine cap} (h : ∀ a : Fin cap, l.mem.read a.val = 0#16) : LoneWord l 0 0 :=
  fun j hj => by
    rw [h ⟨_, Nat.mod_lt _ (Nat.zero_lt_of_lt hj)⟩, ite_self]
    rfl

/-- A 0 pushed onto the line brings the word one place nearer to the cursor. -/
theorem LoneWord.push_zero {cap d : Nat} {l : DelayLine cap} {q : Int} (h : LoneWord l (d + 1) q) (hd : d + 1 < cap)
    {v : Sample} (hv : v.toInt = 0) : LoneWord (l.push v) d q := fun j hj => by
  rw [push_read_from_cursor]
  split_ifs with hlast hjd hjd
  · have := Nat.le_of_dvd (Nat.succ_pos j) hlast
    omega
  · exact hv
  · have hnext := h (j + 1) (by omega)
    rwa [if_pos (by omega)] at hnext
  · have hnext := h (j + 1) (lt_of_le_of_ne hj fun e => hlast (e ▸ dvd_rfl))
    rwa [if_neg (by omega)] at hnext

/-- A word pushed over the lone one is the lone one, the farthest from the cursor. -/
theorem LoneWord.push_over {cap n : Nat} {l : DelayLine cap} {p : Int} (h : LoneWord l 0 p) (hn : n + 1 = cap) (v : Sample) :
    LoneWord (l.push v) n v.toInt := fun j hj => by
  subst hn
  rw [push_read_from_cursor]
  obtain rfl | hjn := eq_or_ne j n
  · rw [if_pos dvd_rfl, if_pos rfl]
  · have hlast : ¬ n + 1 ∣ j + 1 := Nat.not_dvd_of_pos_of_lt (Nat.succ_pos j) (by omega)
    rw [if_neg hlast, if_neg hjn, h (j + 1) (by omega), if_neg (Nat.succ_ne_zero j)]

theorem LoneWord.oldWord_echo {ls : DelayLines} {d : Nat} {q : Int} (h : LoneWord (ls.line .echo) d q) :
    oldWord ls .echo = if 0 = d then q else 0 := by
  rw [← h 0 (by decide), Nat.add_zero, Nat.mod_eq_of_lt (ls.line .echo).cur.isLt]
  rfl

/-! PROCs and the echo line. -/

/-- R152. -/
theorem echoStage_value_eq_afterEcho (tie : Tie) (s1 : Rat) (n : ParamWord) (ls : DelayLines) :
    (echoStage tie s1 n ls).2 = afterEcho s1 n ls := echoStage_value ..

/-- R180: the output Sample in the terms of the statements. -/
theorem procExact_output_eq (tie : Tie) (x : Sample) (ps : EffectParams) (ls : DelayLines) :
    (procExact tie x ps ls).2 =
      sat tie (afterEcho (afterReverb ((x.toInt : Rat) * numberOf ps.gain) ps.reverb ls) ps.echo ls) := by
  rw [procExact_output, echoStage_value_eq_afterEcho, reverbStage_value_eq_afterReverb, gainStage_eq]

theorem execAll_append {is js : List Instr} {s t : State} (h : execAll is s = .next t) :
    execAll (is ++ js) s = execAll js t := by
  induction is generalizing s with
  | nil => cases h; rfl
  | cons i is ih =>
    obtain ⟨u, hu⟩ := exec_next i s
    rw [execAll_cons_next hu] at h
    rw [List.cons_append, execAll_cons_next hu, ih h]

/-- Samples `xs` take `s` to `t` with the responses `rs`, and leave the echo line with the lone word `q`, `d` places ahead. -/
structure EchoRun (xs : List Sample) (s t : State) (rs : List ResponseWord) (d : Nat) (q : Int) : Prop where
  run    : execAll (process xs) s = .next t
  params : t.params = s.params
  cfg    : t.cfg = s.cfg
  dpOut  : t.dpOut = s.dpOut ++ rs
  line   : LoneWord (t.lines.line .echo) d q

theorem EchoRun.append {xs ys : List Sample} {s t u : State} {rs rs' : List ResponseWord} {d d' : Nat} {q q' : Int}
    (h : EchoRun xs s t rs d q) (h' : EchoRun ys t u rs' d' q') : EchoRun (xs ++ ys) s u (rs ++ rs') d' q' where
  run := by rw [process, List.map_append]; exact (execAll_append h.run).trans h'.run
  params := h'.params.trans h.params
  cfg := h'.cfg.trans h.cfg
  dpOut := by rw [h'.dpOut, h.dpOut, List.append_assoc]
  line := h'.line

section ReverbBypassed

variable {s : State} (hr : s.params.reverb = 0#32) (he : s.params.echo ≠ 0#32) {d : Nat} {q : Int}
include hr he

/-- R150, R152: one PROC with the reverb bypassed, from what its push leaves of the echo line. -/
theorem echoRun_single {x : Sample} {s1 : Rat} (h1 : (x.toInt : Rat) * numberOf s.params.gain = s1)
    (hline : ∀ v : Sample, v.toInt = satInt s.cfg.tie (s1 + (oldWord s.lines .echo : Rat) * (2 / 5)) →
      LoneWord ((s.lines.line .echo).push v) d q) :
    ∃ t, EchoRun [x] s t [sampleWord (satInt s.cfg.tie
      (s1 * (1 - numberOf s.params.echo) + (oldWord s.lines .echo : Rat) * numberOf s.params.echo))] d q := by
  have hreverb : afterReverb s1 s.params.reverb s.lines = s1 := if_pos hr
  refine ⟨_, ⟨execAll_cons_next (exec_proc x s), respond_params .., respond_cfg .., ?_, ?_⟩⟩
  · rw [respond_dp_dpOut, procExact_output_eq, h1, hreverb, afterEcho, if_neg he, okResponse_sampleData]
    rfl
  · rw [respond_lines, procExact_echo_line _ _ _ he, h1, hreverb]
    exact hline _ (echoFeedback_toInt ..)

/-- R153: silence while the word is still ahead of the cursor answers 0. -/
theorem echoRun_silence_before (h : LoneWord (s.lines.line .echo) (d + 1) q) (hd : d + 1 < Config.cap .echo) :
    ∃ t, EchoRun [0#16] s t [sampleWord 0] d q := by
  have hold : oldWord s.lines .echo = 0 := h.oldWord_echo
  have hrun := echoRun_single (x := 0#16) (s1 := 0) (d := d) (q := q) hr he (by simp)
  simp only [hold, Int.cast_zero, zero_mul, add_zero, satInt_zero] at hrun
  exact hrun fun v hv => h.push_zero hd hv

/-- R153: silence when the word is at the cursor answers its share, and leaves it decayed and a lap ahead. -/
theorem echoRun_silence_at {n : Nat} (hn : n + 1 = Config.cap .echo) (h : LoneWord (s.lines.line .echo) 0 q) :
    ∃ t, EchoRun [0#16] s t [sampleWord (satInt s.cfg.tie ((q : Rat) * numberOf s.params.echo))] n
      (echoDecay s.cfg.tie q) := by
  have hold : oldWord s.lines .echo = q := h.oldWord_echo
  have hrun := echoRun_single (x := 0#16) (s1 := 0) (d := n) (q := echoDecay s.cfg.tie q) hr he (by simp)
  simp only [hold, zero_mul, zero_add] at hrun
  exact hrun fun v hv => by rw [echoDecay, ← hv]; exact h.push_over hn v

/-- R153: the impulse, at unity gain on a zero line. -/
theorem echoRun_impulse (hg : s.params.gain = 1000#32) (hzero : ∀ a, memRead s.lines .echo a = 0#16) {n : Nat}
    (hn : n + 1 = Config.cap .echo) (A : Sample) :
    ∃ t, EchoRun [A] s t [sampleWord (satInt s.cfg.tie ((A.toInt : Rat) * (1 - numberOf s.params.echo)))] n A.toInt := by
  have hold : oldWord s.lines .echo = 0 := congrArg BitVec.toInt (hzero _)
  have hunity : (A.toInt : Rat) * numberOf s.params.gain = A.toInt := by rw [hg, ← gainStage_eq, gainStage_unity]
  have hrun := echoRun_single (d := n) (q := A.toInt) hr he hunity
  simp only [hold, Int.cast_zero, zero_mul, add_zero, satInt_intCast _ (sample_toInt_ge A) (sample_toInt_le A)] at hrun
  exact hrun fun v hv => hv ▸ (loneWord_of_zero hzero).push_over hn v

end ReverbBypassed

/-- R153: silence until the word is at the cursor. -/
theorem echoRun_gap {s : State} (hr : s.params.reverb = 0#32) (he : s.params.echo ≠ 0#32) {n : Nat} {q : Int}
    (h : LoneWord (s.lines.line .echo) n q) (hn : n < Config.cap .echo) :
    ∃ t, EchoRun (List.replicate n 0#16) s t (List.replicate n (sampleWord 0)) 0 q := by
  induction n generalizing s with
  | zero => exact ⟨s, rfl, rfl, rfl, (List.append_nil _).symm, h⟩
  | succ n ih =>
    obtain ⟨t, ht⟩ := echoRun_silence_before hr he h hn
    obtain ⟨u, hu⟩ := ih (ht.params ▸ hr) (ht.params ▸ he) ht.line (by omega)
    exact ⟨u, ht.append hu⟩

/-- What one lap of silence answers when the lone word is `q` and starts `n` places ahead, a whole lap less one. -/
def lapResponses (s : State) (n : Nat) (q : Int) : List ResponseWord :=
  List.replicate n (sampleWord 0) ++ [sampleWord (satInt s.cfg.tie ((q : Rat) * numberOf s.params.echo))]

/-- R153: after Samples `xs` that leave the lone word a lap ahead, a lap of silence does so again, with the word decayed. -/
theorem EchoRun.lap {xs : List Sample} {s t : State} {rs : List ResponseWord} {n : Nat} {q : Int} (h : EchoRun xs s t rs n q)
    (hr : s.params.reverb = 0#32) (he : s.params.echo ≠ 0#32) (hn : n + 1 = Config.cap .echo) :
    ∃ u, EchoRun (xs ++ List.replicate (n + 1) 0#16) s u (rs ++ lapResponses s n q) n (echoDecay s.cfg.tie q) := by
  rw [← h.params] at hr he
  obtain ⟨u, hu⟩ := echoRun_gap hr he h.line (by omega)
  rw [← hu.params] at hr he
  obtain ⟨w, hw⟩ := echoRun_silence_at hr he hn hu.line
  rw [hu.params, hu.cfg, h.params, h.cfg] at hw
  rw [List.replicate_succ', lapResponses]
  exact ⟨w, h.append (hu.append hw)⟩

/-- R153: an impulse and three laps of silence. -/
theorem echoRun_impulse_three_laps {s : State} (hg : s.params.gain = 1000#32) (hr : s.params.reverb = 0#32)
    (he : s.params.echo ≠ 0#32) (hzero : ∀ a, memRead s.lines .echo a = 0#16) {n m : Nat} (hn : n + 1 = Config.cap .echo)
    (hm : m = n + 1 + (n + 1) + (n + 1)) (A : Sample) :
    ∃ t, EchoRun (A :: List.replicate m 0#16) s t
      ([sampleWord (satInt s.cfg.tie ((A.toInt : Rat) * (1 - numberOf s.params.echo)))] ++ lapResponses s n A.toInt ++
        lapResponses s n (echoDecay s.cfg.tie A.toInt) ++
        lapResponses s n (echoDecay s.cfg.tie (echoDecay s.cfg.tie A.toInt))) n
      (echoDecay s.cfg.tie (echoDecay s.cfg.tie (echoDecay s.cfg.tie A.toInt))) := by
  obtain ⟨t, ht⟩ := echoRun_impulse hr he hg hzero hn A
  obtain ⟨u, hu⟩ := ht.lap hr he hn
  obtain ⟨v, hv⟩ := hu.lap hr he hn
  obtain ⟨w, hw⟩ := hv.lap hr he hn
  rw [hm, List.replicate_add, List.replicate_add, ← List.singleton_append, ← List.append_assoc, ← List.append_assoc]
  exact ⟨w, hw⟩

/-- Settles O48: three laps of silence after the impulse, at the echo line's capacity (`echoRun_impulse_three_laps`). -/
theorem echoImpulseResponse : Obligations.EchoImpulseResponse := by
  intro A s hg hr he hzero tie L q0 q1 q2 gap
  obtain ⟨t, ht⟩ := echoRun_impulse_three_laps (n := 13229) (m := 39690) hg hr he hzero (by decide) (by decide) A
  refine ⟨t, ht.run, ?_⟩
  rw [ht.dpOut]
  simp only [lapResponses, List.append_assoc]
  rfl

end Sys2Proof.Machine
end

section
/-! ROUND: the nearest integer under every TIE, and its value at an exact half (R166). -/

namespace Sys2Proof.Machine

/-! Halfway values are the integers plus one half. -/

theorem floor_add_half (f : Int) : ((f : Rat) + 1 / 2).floor = f :=
  (Int.floor_eq_iff (a := (f : Rat) + 1 / 2)).2 ⟨by linarith, by linarith⟩

theorem sub_floor_eq_half_iff {v : Rat} : v - v.floor = 1 / 2 ↔ ∃ f : Int, v = f + 1 / 2 where
  mp h := ⟨v.floor, by linarith⟩
  mpr := by
    rintro ⟨f, rfl⟩
    rw [floor_add_half, add_sub_cancel_left]

/-! ROUND below, above and on the half. -/

theorem round_of_lt_half (tie : Tie) {v : Rat} (h : v - v.floor < 1 / 2) : round tie v = v.floor := if_pos h

theorem round_of_half_lt (tie : Tie) {v : Rat} (h : 1 / 2 < v - v.floor) : round tie v = v.floor + 1 :=
  (if_neg h.not_gt).trans (if_pos h)

theorem round_add_half (tie : Tie) (f : Int) : round tie ((f : Rat) + 1 / 2) = roundHalfway tie f (decide (0 ≤ f)) := by
  have hpos : 0 < (f : Rat) + 1 / 2 ↔ 0 ≤ f := by
    constructor
    · intro h
      have : (-1 : Rat) < f := by linarith
      have : -1 < f := by exact_mod_cast this
      omega
    · intro h
      have : (0 : Rat) ≤ f := by exact_mod_cast h
      linarith
  simp only [round, floor_add_half, add_sub_cancel_left, lt_irrefl, if_false, hpos]

/-! How near the integer taken is. -/

theorem abs_sub_round_lt (tie : Tie) {v : Rat} (h : v - v.floor ≠ 1 / 2) : |v - round tie v| < 1 / 2 := by
  have hlo : (v.floor : Rat) ≤ v := Int.floor_le v
  have hhi : v < v.floor + 1 := Int.lt_floor_add_one v
  obtain hlt | hgt := lt_or_gt_of_ne h
  · rw [round_of_lt_half tie hlt, abs_lt]
    constructor <;> linarith
  · rw [round_of_half_lt tie hgt, abs_lt]
    push_cast
    constructor <;> linarith

theorem abs_sub_round_le (tie : Tie) (v : Rat) : |v - round tie v| ≤ 1 / 2 := by
  by_cases h : v - v.floor = 1 / 2
  · obtain ⟨f, rfl⟩ := sub_floor_eq_half_iff.1 h
    obtain ⟨hlo, hhi⟩ := roundHalfway_bounds tie f (decide (0 ≤ f))
    rw [← round_add_half] at hlo hhi
    have hlo' : (f : Rat) ≤ round tie (f + 1 / 2) := mod_cast hlo
    have hhi' : (round tie (f + 1 / 2) : Rat) ≤ f + 1 := mod_cast hhi
    rw [abs_le]
    constructor <;> linarith
  · exact (abs_sub_round_lt tie h).le

theorem lt_round_of_add_half_lt (tie : Tie) {v : Rat} {n : Int} (h : (n : Rat) + 1 / 2 < v) : n < round tie v := by
  have hnear := (abs_le.1 (abs_sub_round_le tie v)).2
  exact_mod_cast (by linarith : (n : Rat) < round tie v)

theorem round_lt_of_lt_sub_half (tie : Tie) {v : Rat} {n : Int} (h : v < (n : Rat) - 1 / 2) : round tie v < n := by
  have hnear := (abs_le.1 (abs_sub_round_le tie v)).1
  exact_mod_cast (by linarith : (round tie v : Rat) < n)

/-- R168 (b): were the order reversed, the two values would have to be one and the same half. -/
theorem round_monotone (tie : Tie) : Monotone (round tie) := by
  intro v w h
  by_contra hlt
  have hlt' : (round tie w : Rat) + 1 ≤ round tie v := by exact_mod_cast not_le.1 hlt
  have hv := (abs_le.1 (abs_sub_round_le tie v)).1
  have hw := (abs_le.1 (abs_sub_round_le tie w)).2
  have heq : v = w := by linarith
  exact hlt (congrArg (round tie) heq).le

/-! Each TIE at the half. -/

theorem round_halfUp_add_half (f : Int) : round .halfUp ((f : Rat) + 1 / 2) = f + 1 := round_add_half ..

theorem abs_round_halfAway_add_half (f : Int) :
    |(round .halfAway ((f : Rat) + 1 / 2) : Rat)| = |(f : Rat) + 1 / 2| + 1 / 2 := by
  rw [round_add_half, roundHalfway]
  by_cases h : 0 ≤ f
  · have hf : (0 : Rat) ≤ f := by exact_mod_cast h
    rw [if_pos (decide_eq_true h), Int.cast_add, Int.cast_one, abs_of_nonneg (by linarith), abs_of_nonneg (by linarith)]
    ring
  · have hf : (f : Rat) ≤ -1 := by exact_mod_cast (by omega : f ≤ -1)
    rw [if_neg (by simpa using h), abs_of_nonpos (by linarith), abs_of_nonpos (by linarith)]
    ring

theorem round_halfEven_add_half_even (f : Int) : round .halfEven ((f : Rat) + 1 / 2) % 2 = 0 := by
  rw [round_add_half, roundHalfway]
  split_ifs <;> omega

theorem round_halfUp_eq_floor (v : Rat) : round .halfUp v = (v + 1 / 2).floor := by
  have hlo : ((v + 1 / 2).floor : Rat) ≤ v + 1 / 2 := Int.floor_le (v + 1 / 2)
  have hhi : v + 1 / 2 < (v + 1 / 2).floor + 1 := Int.lt_floor_add_one (v + 1 / 2)
  by_cases h : v - v.floor = 1 / 2
  · obtain ⟨f, rfl⟩ := sub_floor_eq_half_iff.1 h
    have hsum : (f : Rat) + 1 / 2 + 1 / 2 = (f + 1 : Int) := by push_cast; ring
    rw [round_halfUp_add_half, hsum, Rat.floor_intCast]
  · refine round_eq_of_abs_sub_lt _ (abs_lt.2 ⟨lt_of_le_of_ne (by linarith) fun heq => h ?_, by linarith⟩)
    exact sub_floor_eq_half_iff.2 ⟨(v + 1 / 2).floor - 1, by push_cast; linarith⟩

/-- Settles O18: ROUND below and above the half, its nearness (`abs_sub_round_le`), and each TIE at `f + 1/2`. -/
theorem roundTakesNearestInteger : Obligations.RoundTakesNearestInteger := by
  refine ⟨fun tie v => ⟨round_of_lt_half tie, round_of_half_lt tie, abs_sub_round_le tie v⟩, fun v h => ?_,
    round_halfUp_eq_floor⟩
  obtain ⟨f, rfl⟩ := sub_floor_eq_half_iff.1 h
  rw [floor_add_half]
  exact ⟨round_halfUp_add_half f, abs_round_halfAway_add_half f, round_halfEven_add_half_even f⟩

end Sys2Proof.Machine
end

section
/-! SAT: the integer of ROUND clamped to the Sample range, and its arithmetic laws (R165, R168). -/

namespace Sys2Proof.Machine

theorem satInt_eq_max_min_round (tie : Tie) (v : Rat) : satInt tie v = max (-32768) (min 32767 (round tie v)) := by
  rw [satInt, Config.smin, Config.smax]
  split_ifs <;> omega

theorem satInt_monotone (tie : Tie) : Monotone (satInt tie) := fun v w h => by
  have hround := round_monotone tie h
  rw [satInt_eq_max_min_round, satInt_eq_max_min_round]
  omega

/-! The two ends of the range (R168 (c), (d), (h)). -/

theorem satInt_eq_max_of_lt (tie : Tie) {v : Rat} (h : 65533 / 2 < v) : satInt tie v = 32767 := by
  have hround : 32766 < round tie v := lt_round_of_add_half_lt tie (by push_cast; linarith)
  rw [satInt_eq_max_min_round]
  omega

theorem satInt_eq_min_of_lt (tie : Tie) {v : Rat} (h : v < -65535 / 2) : satInt tie v = -32768 := by
  have hround : round tie v < -32767 := round_lt_of_lt_sub_half tie (by push_cast; linarith)
  rw [satInt_eq_max_min_round]
  omega

theorem satInt_add_half (tie : Tie) (f : Int) :
    satInt tie ((f : Rat) + 1 / 2) = max (-32768) (min 32767 (roundHalfway tie f (decide (0 ≤ f)))) := by
  rw [satInt_eq_max_min_round, round_add_half]

theorem satInt_upper_half (tie : Tie) : satInt tie (65533 / 2) = if tie = .halfEven then 32766 else 32767 := by
  have hv : (65533 / 2 : Rat) = (32766 : Int) + 1 / 2 := by norm_num
  rw [hv, satInt_add_half]
  cases tie <;> decide

theorem satInt_lower_half (tie : Tie) : satInt tie (-65535 / 2) = if tie = .halfUp then -32767 else -32768 := by
  have hv : (-65535 / 2 : Rat) = (-32768 : Int) + 1 / 2 := by norm_num
  rw [hv, satInt_add_half]
  cases tie <;> decide

/-- R168 (h): within one half beyond the ends of the range, clamping goes toward the value and not away from it. -/
theorem abs_satInt_sub_le (tie : Tie) {v : Rat} (hlo : -65537 / 2 ≤ v) (hhi : v ≤ 65535 / 2) :
    |(satInt tie v : Rat) - v| ≤ 1 / 2 := by
  obtain ⟨hbelow, habove⟩ := abs_le.1 (abs_sub_round_le tie v)
  have hge : v - 1 / 2 ≤ satInt tie v := by
    rw [satInt_eq_max_min_round]
    push_cast
    exact le_max_of_le_right (le_min (by linarith) (by linarith))
  have hle : (satInt tie v : Rat) ≤ v + 1 / 2 := by
    rw [satInt_eq_max_min_round]
    push_cast
    exact max_le (by linarith) (min_le_of_right_le (by linarith))
  rw [abs_le]
  constructor <;> linarith

/-! Symmetry about 0 (R168 (f)). -/

theorem neg_add_half (f : Int) : -((f : Rat) + 1 / 2) = (-f - 1 : Int) + 1 / 2 := by
  push_cast
  ring

/-- R168 (f): off the halves every TIE is odd. -/
theorem round_neg_of_not_halfway (tie : Tie) {v : Rat} (h : v - v.floor ≠ 1 / 2) : round tie (-v) = -round tie v := by
  refine round_eq_of_abs_sub_lt tie ?_
  rw [Int.cast_neg, neg_sub_neg, abs_sub_comm]
  exact abs_sub_round_lt tie h

/-- R168 (f): at a half, `half_away` and `half_even` choose by magnitude, and are odd there too. -/
theorem round_neg {tie : Tie} (htie : tie ≠ .halfUp) (v : Rat) : round tie (-v) = -round tie v := by
  by_cases h : v - v.floor = 1 / 2
  · obtain ⟨f, rfl⟩ := sub_floor_eq_half_iff.1 h
    rw [neg_add_half, round_add_half, round_add_half]
    cases tie with
    | halfUp => exact absurd rfl htie
    | halfAway => simp only [roundHalfway, decide_eq_true_eq]; split_ifs <;> omega
    | halfEven => simp only [roundHalfway]; split_ifs <;> omega
  · exact round_neg_of_not_halfway tie h

/-- R168 (f): at a half, `half_up` goes the same way on both sides of 0. -/
theorem round_halfUp_neg_eq_iff (v : Rat) : round .halfUp (-v) = -round .halfUp v ↔ v - v.floor ≠ 1 / 2 := by
  refine ⟨fun hodd h => ?_, round_neg_of_not_halfway .halfUp⟩
  obtain ⟨f, rfl⟩ := sub_floor_eq_half_iff.1 h
  rw [neg_add_half, round_halfUp_add_half, round_halfUp_add_half] at hodd
  omega

theorem satInt_eq_round_of_abs_le (tie : Tie) {v : Rat} (h : |v| ≤ 32767) : satInt tie v = round tie v := by
  obtain ⟨hlo, hhi⟩ := abs_le.1 h
  have hge : -32768 < round tie v := lt_round_of_add_half_lt tie (by push_cast; linarith)
  have hle : round tie v < 32768 := round_lt_of_lt_sub_half tie (by push_cast; linarith)
  rw [satInt_eq_max_min_round]
  omega

theorem satInt_neg_of_abs_le {tie : Tie} (htie : tie ≠ .halfUp) {v : Rat} (h : |v| ≤ 32767) :
    satInt tie (-v) = -satInt tie v := by
  rw [satInt_eq_round_of_abs_le tie h, satInt_eq_round_of_abs_le tie ((abs_neg v).trans_le h), round_neg htie]

theorem satInt_halfUp_neg_ne_iff {v : Rat} (h : |v| ≤ 32767) :
    satInt .halfUp (-v) ≠ -satInt .halfUp v ↔ v - v.floor = 1 / 2 := by
  rw [satInt_eq_round_of_abs_le _ h, satInt_eq_round_of_abs_le _ ((abs_neg v).trans_le h), Ne,
    round_halfUp_neg_eq_iff, not_ne_iff]

/-- R168 (e): SAT keeps 0 and the order. -/
theorem satInt_sign (tie : Tie) (v : Rat) : (0 ≤ v → 0 ≤ satInt tie v) ∧ (v ≤ 0 → satInt tie v ≤ 0) :=
  ⟨fun h => (satInt_zero tie).ge.trans (satInt_monotone tie h),
    fun h => (satInt_monotone tie h).trans (satInt_zero tie).le⟩

/-- Settles O19: each law is a lemma above; the first clause is SAT's definition and its word (`sat_toInt`). -/
theorem saturatorLaws : Obligations.SaturatorLaws :=
  ⟨fun tie v => ⟨sat_toInt tie v, rfl⟩,
    fun tie _ => satInt_intCast tie,
    fun tie _ _ h => satInt_monotone tie h,
    fun tie _ => satInt_eq_max_of_lt tie,
    ⟨satInt_upper_half .halfUp, satInt_upper_half .halfAway, satInt_upper_half .halfEven⟩,
    fun tie _ => satInt_eq_min_of_lt tie,
    ⟨satInt_lower_half .halfUp, satInt_lower_half .halfAway, satInt_lower_half .halfEven⟩,
    satInt_sign,
    fun _ h => ⟨satInt_neg_of_abs_le (by decide) h, satInt_neg_of_abs_le (by decide) h⟩,
    fun _ => satInt_halfUp_neg_ne_iff,
    fun tie => ⟨satInt_eq_max_of_lt tie (by norm_num), satInt_eq_min_of_lt tie (by norm_num)⟩,
    fun tie _ => abs_satInt_sub_le tie⟩

end Sys2Proof.Machine
end

section
/-! PROC in the terms of the statements: its one response, the Samples it passes whole, chunks, and the order of the stages (R180,
R181, R185, R186). -/

namespace Sys2Proof.Machine

open Sys2Proof.Claims

/-! The response of one PROC. -/

/-- The integer value of the Sample that PROC answers: gain, reverb, echo and Saturator over the old words (R180). -/
def procOutput (x : Sample) (s : State) : Int :=
  satInt s.cfg.tie
    (afterEcho (afterReverb ((x.toInt : Rat) * numberOf s.params.gain) s.params.reverb s.lines) s.params.echo s.lines)

theorem procOutput_bounds (x : Sample) (s : State) : -32768 ≤ procOutput x s ∧ procOutput x s ≤ 32767 :=
  ⟨satInt_ge .., satInt_le ..⟩

/-- R180: PROC writes the lines and appends `procOutput` to the responses of the data port, and that is all. -/
theorem exec_proc_eq_procOutput (x : Sample) (s : State) : exec (.proc x) s = .next { s with
    lines := (procExact s.cfg.tie x s.params s.lines).1
    dpOut := s.dpOut ++ [sampleWord (procOutput x s)] } := by
  rw [exec_proc, procExact_output_eq, respond, okResponse_sampleData]
  rfl

/-- Settles O21: `exec_proc_eq_procOutput`. -/
theorem procOutputIsSaturatedBlend : Obligations.ProcOutputIsSaturatedBlend := fun x s =>
  ⟨_, exec_proc_eq_procOutput x s, rfl⟩

/-- Settles O23: `exec_proc_eq_procOutput`, and the range of SAT. -/
theorem procFrame : Obligations.ProcFrame := fun x s =>
  ⟨_, _, exec_proc_eq_procOutput x s, procOutput_bounds x s⟩

/-! Both engines bypassed (R180 (a)). -/

/-- R165: SAT gives a Sample's own word back. -/
theorem sat_toInt_cast (tie : Tie) (x : Sample) : sat tie (x.toInt : Rat) = x :=
  BitVec.eq_of_toInt_eq ((sat_toInt ..).trans (satInt_intCast tie (sample_toInt_ge x) (sample_toInt_le x)))

/-- Settles O24: the lines are left whole (`procExact_bypassed`), and at unity gain SAT returns the Sample. -/
theorem bypassedUnityProcIsIdentity : Obligations.BypassedUnityProcIsIdentity := by
  intro x s hg hr he
  have hout : procExact s.cfg.tie x s.params s.lines = (s.lines, x) := by
    rw [procExact_bypassed _ _ _ hr he, hg, ← gainStage_eq, gainStage_unity, sat_toInt_cast]
  rw [exec_proc, hout, respond, okResponse_sampleData]
  rfl

/-! The echo alone (R180 (e)). -/

theorem numberOf_thousand : numberOf 1000#32 = 1 := div_self (by decide)

/-- R152: at level 1000 the echo stage passes nothing of its input. -/
theorem afterEcho_thousand (s1 : Rat) (ls : DelayLines) : afterEcho s1 1000#32 ls = oldWord ls .echo := by
  rw [afterEcho, if_neg (by decide), numberOf_thousand, sub_self, mul_zero, zero_add, mul_one]

/-- Settles O27: the echo stage's value is the old word (`afterEcho_thousand`), which SAT leaves as it is. -/
theorem fullEchoOutputsTheOldWord : Obligations.FullEchoOutputsTheOldWord := by
  intro x s he
  obtain ⟨hlo, hhi⟩ := oldWord_bounds s.lines .echo
  have hout : procOutput x s = oldWord s.lines .echo := by
    rw [procOutput, he, afterEcho_thousand, satInt_intCast _ hlo hhi]
  exact ⟨_, exec_proc_eq_procOutput x s, by rw [hout]⟩

/-! Chunks (R185). -/

/-- R185 (a): one response for each Sample of a chunk, in order. -/
theorem execAll_process_outputs (xs : List Sample) (s : State) : ∃ (t : State) (ys : List Int),
    execAll (process xs) s = .next t ∧ ys.length = xs.length ∧ (∀ y ∈ ys, -32768 ≤ y ∧ y ≤ 32767) ∧
      t.dpOut = s.dpOut ++ ys.map sampleWord := by
  induction xs generalizing s with
  | nil => exact ⟨s, [], rfl, rfl, by simp, by simp⟩
  | cons x xs ih =>
    have hx := exec_proc_eq_procOutput x s
    obtain ⟨t, ys, ht, hlen, hrange, hout⟩ := ih _
    refine ⟨t, procOutput x s :: ys, (execAll_cons_next hx).trans ht, by simp [hlen], ?_, by simp [hout]⟩
    exact List.forall_mem_cons.2 ⟨procOutput_bounds x s, hrange⟩

/-- Settles O33: `execAll_process_outputs`, and `execAll_append` at the cut. -/
theorem chunkGivesOneSamplePerSample : Obligations.ChunkGivesOneSamplePerSample := by
  refine ⟨execAll_process_outputs, fun xs ys s => ?_⟩
  obtain ⟨t, ht⟩ := execAll_next (process xs) s
  obtain ⟨u, hu⟩ := execAll_next (process ys) t
  refine ⟨t, u, ht, hu, ?_⟩
  rw [process, List.map_append]
  exact (execAll_append ht).trans hu

/-! The order of the stages (R186). -/

/-- All levels at one half, and one word at the cursor of `rv0` and of the echo line. -/
def stageOrderWitness : State where
  lines :=
    (DelayLines.zero.setLine .rv0 { mem := [(0, 8000)], cur := ⟨0, by decide⟩ }).setLine .echo
      { mem := [(0, 4000)], cur := ⟨0, by decide⟩ }
  params := { gain := 500#32, reverb := 500#32, echo := 500#32, pitch := 0#32 }
  cfg := .taken
  pending := []
  dpOut := []
  cpOut := []

theorem numberOf_five_hundred : numberOf 500#32 = 1 / 2 := by
  have h : (500#32).toInt = 500 := by decide
  norm_num [numberOf, h]

theorem stageOrderWitness_reverb (v : Rat) :
    afterReverb v stageOrderWitness.params.reverb stageOrderWitness.lines = v / 2 + 500 := by
  have hsum : oldSum stageOrderWitness.lines = 8000 := by decide
  rw [afterReverb, if_neg (by decide), hsum, stageOrderWitness, numberOf_five_hundred]
  ring

theorem stageOrderWitness_echo (v : Rat) :
    afterEcho v stageOrderWitness.params.echo stageOrderWitness.lines = v / 2 + 2000 := by
  have hold : oldWord stageOrderWitness.lines .echo = 4000 := by decide
  rw [afterEcho, if_neg (by decide), hold, stageOrderWitness, numberOf_five_hundred]
  ring

/-- R165: SAT of a value that is an integer of the Sample range. -/
theorem satInt_eq_of_eq_intCast (tie : Tie) {v : Rat} {n : Int} (hv : v = n) (hn : -32768 ≤ n ∧ n ≤ 32767) :
    satInt tie v = n := hv ▸ satInt_intCast tie hn.1 hn.2

/-- Settles O32: at `stageOrderWitness` PROC answers 2375 for the Sample 1000, and the swapped formulas give 2250, 1250 and
1625. -/
theorem stageOrderIsObservable : Obligations.StageOrderIsObservable := by
  refine ⟨1000#16, stageOrderWitness, _, _, by decide, by decide, exec_proc_eq_procOutput _ _, rfl, ?_⟩
  intro g reverb echo
  have hx : ((1000#16).toInt : Rat) = 1000 := rfl
  have hg : g = 1 / 2 := numberOf_five_hundred
  have hreverb : ∀ v, reverb v = v / 2 + 500 := stageOrderWitness_reverb
  have hecho : ∀ v, echo v = v / 2 + 2000 := stageOrderWitness_echo
  have hrule : procOutput 1000#16 stageOrderWitness = 2375 := by
    refine satInt_eq_of_eq_intCast _ (?_ : echo (reverb (_ * g)) = _) (by decide)
    norm_num [hx, hg, hreverb, hecho]
  have hgainSecond : satInt stageOrderWitness.cfg.tie (echo (reverb (1000#16).toInt * g)) = 2250 :=
    satInt_eq_of_eq_intCast _ (by norm_num [hx, hg, hreverb, hecho]) (by decide)
  have hgainLast : satInt stageOrderWitness.cfg.tie (echo (reverb (1000#16).toInt) * g) = 1250 :=
    satInt_eq_of_eq_intCast _ (by norm_num [hx, hg, hreverb, hecho]) (by decide)
  have hechoFirst : satInt stageOrderWitness.cfg.tie (reverb (echo ((1000#16).toInt * g))) = 1625 :=
    satInt_eq_of_eq_intCast _ (by norm_num [hx, hg, hreverb, hecho]) (by decide)
  rw [hrule, hgainSecond, hgainLast, hechoFirst]
  decide

end Sys2Proof.Machine
end

section
/-! RESET: what it leaves, that it is a loop of word writes, and the silence after it (R182). -/

namespace Sys2Proof.Machine

open Sys2Proof.Claims

/-! The state after RESET and its words. -/

theorem clearLines_eq_reset_lines (ls : DelayLines) : clearLines ls = State.reset.lines := rfl

/-- The state that RESET leaves: the power-on lines and one more response, 0, at the control port (R182). -/
def State.afterReset (s : State) : State := { s with lines := State.reset.lines, cpOut := s.cpOut ++ [0x0000000000] }

theorem exec_reset_eq_afterReset (s : State) : exec .reset s = .next s.afterReset := by
  rw [exec_reset, clearLines_eq_reset_lines]
  rfl

/-- R96, R98: the words with the opcode of RESET. -/
theorem decode_reset_word (v : BitVec 32) : decode .dp (0x02#8 ++ v) = .error .illegalOpcode ∧
    decode .cp (0x02#8 ++ v) = if v = 0#32 then .ok .reset else .error .reservedField := by
  have hop : opcodeField (0x02#8 ++ v) = 0x02#8 := opcodeField_append _ _
  constructor
  · exact decode_of_not_accepts (by rw [hop]; rfl)
  · exact (decode_of_opcode (i := .reset) rfl hop).trans (by rw [readAs, formatZ, operandField_append]; rfl)

/-! Clearing as a loop. -/

/-- Writing 0 at each index of a list drops the listings of these indices. -/
theorem foldl_write_zero (is : List Nat) (m : Memory) :
    is.foldl (fun m a => Memory.write m a 0#16) m = m.filter fun c => c.1 ∉ is := by
  induction is generalizing m with
  | nil => simp
  | cons a is ih =>
    have hwrite : Memory.write m a 0#16 = m.filter fun c => c.1 ≠ a := if_pos rfl
    rw [List.foldl_cons, ih, hwrite, List.filter_filter]
    simp [Bool.and_comm]

/-- A canonical memory lists only indices below its capacity. -/
theorem Memory.lt_of_mem_wfFrom {lo cap : Nat} {m : Memory} (h : Memory.wfFrom lo cap m = true) : ∀ c ∈ m, c.1 < cap := by
  induction m generalizing lo with
  | nil => simp
  | cons c m ih =>
    obtain ⟨-, hc, -, hm⟩ := Memory.wfFrom_cons.1 h
    exact List.forall_mem_cons.2 ⟨hc, ih hm⟩

/-- Settles O15: the loop keeps the listings of the indices it does not reach (`foldl_write_zero`), and there are none. -/
theorem resetIsTheWordLoop : Obligations.ResetIsTheWordLoop := by
  intro ls hwf k
  have hbelow := Memory.lt_of_mem_wfFrom (lines_wf_iff.1 hwf k)
  rw [clearLines_line, cleared_mem, foldl_write_zero, eq_comm, List.filter_eq_nil_iff]
  simpa using hbelow

/-! Silence. -/

/-- Every word of every line is 0. -/
def SilentLines (ls : DelayLines) : Prop := ∀ k a, memRead ls k a = 0#16

theorem silentLines_afterReset (s : State) : SilentLines s.afterReset.lines := fun k => (clearLines_zero s.lines k).2

section Silent

variable {ls : DelayLines} (h : SilentLines ls)
include h

theorem SilentLines.oldWord (k : LineId) : oldWord ls k = 0 := congrArg BitVec.toInt (h k _)

/-- R133: silence in gives silence out of the reverb stage, at every level. -/
theorem SilentLines.afterReverb (r : ParamWord) : afterReverb 0 r ls = 0 := by
  simp [Claims.afterReverb, oldSum, h.oldWord]

/-- R152: and out of the echo stage. -/
theorem SilentLines.afterEcho (e : ParamWord) : afterEcho 0 e ls = 0 := by
  simp [Claims.afterEcho, h.oldWord]

end Silent

/-- R180: a zero Sample on silent lines gives 0. -/
theorem procOutput_zero_of_silent {s : State} (h : SilentLines s.lines) : procOutput 0#16 s = 0 := by
  rw [procOutput, BitVec.toInt_zero, Int.cast_zero, zero_mul, h.afterReverb, h.afterEcho, satInt_zero]

/-- R131, R150: and pushes 0 onto each active line. -/
theorem procExact_zero_push_of_silent (tie : Tie) {ps : EffectParams} {ls : DelayLines} (h : SilentLines ls) {k : LineId}
    (hk : levelOf k ps ≠ 0#32) : ∃ v : Sample, v.toInt = 0 ∧ (procExact tie 0#16 ps ls).1.line k = (ls.line k).push v := by
  by_cases he : k = .echo
  · subst he
    refine ⟨_, ?_, procExact_echo_line _ _ _ hk⟩
    simp [echoFeedback_toInt, h.afterReverb, h.oldWord, satInt_zero]
  · rw [levelOf_of_ne_echo he] at hk
    refine ⟨_, ?_, procExact_reverb_line _ _ _ he hk⟩
    simp [combFeedback_toInt, h.oldWord, satInt_zero]

/-- R180: a zero Sample leaves silent lines silent. -/
theorem SilentLines.procExact_zero {ls : DelayLines} (h : SilentLines ls) (tie : Tie) (ps : EffectParams) :
    SilentLines (procExact tie 0#16 ps ls).1 := by
  intro k a
  by_cases hk : levelOf k ps = 0#32
  · rw [memRead, procExact_line_bypassed _ _ _ hk]
    exact h k a
  · obtain ⟨v, hv, hline⟩ := procExact_zero_push_of_silent tie h hk
    refine BitVec.eq_of_toInt_eq ?_
    rw [(pushed_line_words hline).2, hv, h]
    exact ite_self _

/-- R180: a zero Sample on silent lines is answered with 0 and leaves them silent. -/
theorem exec_proc_zero_of_silent {s : State} (h : SilentLines s.lines) :
    ∃ t, exec (.proc 0#16) s = .next t ∧ SilentLines t.lines ∧ t.dpOut = s.dpOut ++ [sampleWord 0] :=
  ⟨_, exec_proc_eq_procOutput .., h.procExact_zero _ _, by rw [procOutput_zero_of_silent h]⟩

/-- S3: silence stays silence, however long. -/
theorem execAll_silence {s : State} (h : SilentLines s.lines) (n : Nat) :
    ∃ t, execAll (process (List.replicate n 0#16)) s = .next t ∧ t.dpOut = s.dpOut ++ List.replicate n (sampleWord 0) := by
  induction n generalizing s with
  | zero => exact ⟨s, rfl, (List.append_nil _).symm⟩
  | succ n ih =>
    obtain ⟨t, ht, hsilent, hout⟩ := exec_proc_zero_of_silent h
    obtain ⟨u, hu, hrest⟩ := ih hsilent
    refine ⟨u, (execAll_cons_next ht).trans hu, ?_⟩
    rw [hrest, hout, List.replicate_succ, List.append_assoc, List.singleton_append]

/-- Settles O17: RESET leaves silent lines (`silentLines_afterReset`), and then `execAll_silence`. -/
theorem silenceAfterReset : Obligations.SilenceAfterReset := by
  intro s n
  obtain ⟨u, hu, hout⟩ := execAll_silence (silentLines_afterReset s) n
  exact ⟨s.afterReset, u, exec_reset_eq_afterReset s, hu, hout⟩

/-- R182: after RESET a second one adds its response and nothing else, and a zero Sample gives 0. -/
theorem exec_of_exec_reset {s t : State} (h : exec .reset s = .next t) :
    exec .reset t = .next { t with cpOut := t.cpOut ++ [0x0000000000] } ∧
      ∃ u, exec (.proc 0#16) t = .next u ∧ u.dpOut = t.dpOut ++ [0x0000000000] := by
  rw [exec_reset_eq_afterReset] at h
  cases h
  obtain ⟨u, hu, -, hout⟩ := exec_proc_zero_of_silent (silentLines_afterReset s)
  exact ⟨exec_reset_eq_afterReset _, u, hu, hout⟩

/-- Settles O14: RESET's whole next state, what follows it (`exec_of_exec_reset`), and its words. -/
theorem resetClearsTheLines : Obligations.ResetClearsTheLines :=
  ⟨fun s => ⟨State.reset.lines, exec_reset_eq_afterReset s, silentLines_afterReset s, fun k => (clearLines_zero s.lines k).1,
    rfl, fun _ => exec_of_exec_reset⟩, decode_reset_word⟩

end Sys2Proof.Machine
end

section
/-! The parameter commands: what each SET stores and what each GET answers, with the words of both (R200 to R210). -/

namespace Sys2Proof.Machine

open Sys2Proof.Claims

/-! The words of the SETs and the GETs. -/

/-- R91, R96: the word of a SET is read back at the control port, whatever its operand, and is foreign to the data port. -/
theorem decode_set_word (p : ParamId) (v : ParamWord) : decode .cp (encode (setInstr p v)) = .ok (setInstr p v) ∧
    decode .dp (encode (setInstr p v)) = .error .illegalOpcode := by
  have hport : (setInstr p v).port = .cp := by cases p <;> rfl
  constructor
  · exact hport ▸ decode_port_encode (setInstr p v)
  · exact decode_encode_of_port_ne (by rw [hport]; decide)

/-- R91: a word with the opcode of a GET is read by format Z. -/
theorem readAs_getInstr (w : CommandWord) (p : ParamId) : readAs w (getInstr p) = formatZ w (getInstr p) := by
  cases p <;> rfl

/-- R91, R96: the words with the opcode of a GET. -/
theorem decode_get_word_cp (p : ParamId) (v : BitVec 32) : decode .cp (opcodeOf (getInstr p) ++ v) =
    if v = 0#32 then .ok (getInstr p) else .error .reservedField := by
  have hport : (getInstr p).port = .cp := by cases p <;> rfl
  rw [decode_of_opcode hport (opcodeField_append _ v), readAs_getInstr, formatZ, operandField_append]
  rfl

theorem decode_get_word_dp (p : ParamId) (v : BitVec 32) :
    decode .dp (opcodeOf (getInstr p) ++ v) = .error .illegalOpcode :=
  decode_of_not_accepts (by rw [opcodeField_append, accepts_opcodeOf]; cases p <;> rfl)

/-! The SETs. -/

/-- R201, R210: GAIN has no range, so SETG stores its operand under either policy. -/
theorem exec_setg_stores (v : ParamWord) (s : State) : exec (.setg v) s =
    .next { s with params := { s.params with gain := v }, cpOut := s.cpOut ++ [okWord v] } :=
  exec_setInstr .gain v s

section Ranged

variable {p : ParamId} {lo hi : Int} (hp : Config.paramRange p = some (lo, hi))
include hp

/-- R34: every range is made of 32-bit integers, the lower bound first. -/
theorem paramRange_bounds : -2147483648 ≤ lo ∧ lo ≤ hi ∧ hi ≤ 2147483647 := by
  cases p <;> cases hp <;> decide

theorem inRange_iff {n : ParamWord} : inRange p n = true ↔ lo ≤ n.toInt ∧ n.toInt ≤ hi := by
  simp [inRange, hp]

/-- R210: the word that a SET stores holds the integer that the statements name, whichever the policy. A clamped operand is
encoded whole, since the range lies within 32 bits. -/
theorem accepted_toInt (policy : OorPolicy) (old v : ParamWord) :
    (accepted policy p old v).toInt = storedBy policy lo hi old.toInt v.toInt := by
  obtain ⟨hlo, hle, hhi⟩ := paramRange_bounds hp
  simp only [accepted, hp]
  cases policy with
  | clamp =>
    have hmin : -2147483648 ≤ clampInt v.toInt lo hi := by unfold clampInt; split_ifs <;> omega
    have hmax : clampInt v.toInt lo hi ≤ 2147483647 := by unfold clampInt; split_ifs <;> omega
    exact enc32_toInt hmin hmax
  | reject => exact apply_ite BitVec.toInt _ old v

/-- R200, R210: the whole next state of the SET of a register with a range. -/
theorem set_stores (v : ParamWord) (s : State) : ∃ n : ParamWord, exec (setInstr p v) s =
      .next { s with params := writeParam s.params p n, cpOut := s.cpOut ++ [okWord n] } ∧
    n.toInt = storedBy s.cfg.oor lo hi (readParam s.params p).toInt v.toInt :=
  ⟨_, exec_setInstr p v s, accepted_toInt hp ..⟩

/-- R202 to R204: under clamp, the SET of a register with a range stores its operand clamped; and how its word is read. -/
theorem set_stores_clamped (v : ParamWord) :
    (∀ s : State, s.cfg.oor = .clamp → ∃ n : ParamWord, exec (setInstr p v) s =
        .next { s with params := writeParam s.params p n, cpOut := s.cpOut ++ [okWord n] } ∧
      n.toInt = if v.toInt < lo then lo else if v.toInt > hi then hi else v.toInt) ∧
    decode .cp (encode (setInstr p v)) = .ok (setInstr p v) ∧
    decode .dp (encode (setInstr p v)) = .error .illegalOpcode := by
  refine ⟨fun s hclamp => ?_, decode_set_word p v⟩
  obtain ⟨n, hexec, hn⟩ := set_stores hp v s
  rw [hclamp] at hn
  exact ⟨n, hexec, hn⟩

end Ranged

/-- Settles O34: `exec_setg_stores`, and the word of SETG. -/
theorem setgStoresItsOperand : Obligations.SetgStoresItsOperand := fun v =>
  ⟨exec_setg_stores v, decode_set_word .gain v⟩

/-- Settles O35: `set_stores_clamped` at REVERB. -/
theorem setrStoresClampedLevel : Obligations.SetrStoresClampedLevel := set_stores_clamped (p := .reverb) rfl

/-- Settles O36: `set_stores_clamped` at ECHO. -/
theorem seteStoresClampedLevel : Obligations.SeteStoresClampedLevel := set_stores_clamped (p := .echo) rfl

/-- Settles O37: `set_stores_clamped` at PITCH. -/
theorem setpStoresClampedPitch : Obligations.SetpStoresClampedPitch := set_stores_clamped (p := .pitch) rfl

/-- Settles O38: GAIN stores every operand (`exec_setg_stores`), and `set_stores` at each register with a range. -/
theorem setStoresByPolicy : Obligations.SetStoresByPolicy := fun v s =>
  ⟨exec_setg_stores v s, set_stores (p := .reverb) rfl v s, set_stores (p := .echo) rfl v s,
    set_stores (p := .pitch) rfl v s⟩

/-! The GETs. -/

/-- R205: a GET answers its register and changes nothing else. -/
theorem exec_get_answers (p : ParamId) (s : State) :
    exec (getInstr p) s = .next { s with cpOut := s.cpOut ++ [okWord (readParam s.params p)] } :=
  exec_getInstr p s

/-- R34: where the invariant holds, a register with a range holds a value in it. -/
theorem readParam_bounds_of_inv {s : State} (h : s.inv = true) {p : ParamId} {lo hi : Int}
    (hp : Config.paramRange p = some (lo, hi)) :
    lo ≤ (readParam s.params p).toInt ∧ (readParam s.params p).toInt ≤ hi :=
  (inRange_iff hp).1 ((inv_iff.1 h).2 p)

/-- Settles O39: `exec_get_answers`, the words of the GETs at both ports, and the ranges by `readParam_bounds_of_inv`. -/
theorem gettersAnswerTheirRegister : Obligations.GettersAnswerTheirRegister := by
  refine ⟨fun s => ?_, fun v => ?_, fun s hs => ?_⟩
  · exact ⟨exec_get_answers .gain s, exec_get_answers .reverb s, exec_get_answers .echo s, exec_get_answers .pitch s⟩
  · exact ⟨decode_get_word_cp .gain v, decode_get_word_cp .reverb v, decode_get_word_cp .echo v, decode_get_word_cp .pitch v,
      decode_get_word_dp .gain v, decode_get_word_dp .reverb v, decode_get_word_dp .echo v, decode_get_word_dp .pitch v⟩
  · obtain ⟨hr0, hr1⟩ := readParam_bounds_of_inv hs (p := .reverb) rfl
    obtain ⟨he0, he1⟩ := readParam_bounds_of_inv hs (p := .echo) rfl
    obtain ⟨hp0, hp1⟩ := readParam_bounds_of_inv hs (p := .pitch) rfl
    exact ⟨hr0, hr1, he0, he1, hp0, hp1⟩

end Sys2Proof.Machine
end

section
/-! What a step answers when it executes no command: an error word (R231, R232) or nothing (R243). -/

namespace Sys2Proof.Machine

open Sys2Proof.Claims

/-- R231, R232: the response that the model builds from a status and data is the word the spec lists for the error. -/
theorem errorResponse_eq_errorWord (e : CmdError) : errorResponse e = errorWord e := by
  cases e <;> decide

/-- Settles O2: the step raises the error (`step_of_decode_error`), which appends its word (`errorResponse_eq_errorWord`) at the
port of the presented word and updates no other field. -/
theorem stepAnswersErrorWord : Obligations.StepAnswersErrorWord := by
  intro s ⟨q, w⟩ rest e hp hd
  rw [step_of_decode_error hp hd, raiseCmdError, errorResponse_eq_errorWord]
  cases q with
  | dp => rfl
  | cp => rfl

/-- Settles O3: `step_of_pending_nil`. -/
theorem idleStepHoldsState : Obligations.IdleStepHoldsState := fun _ => step_of_pending_nil

end Sys2Proof.Machine
end

section
/-! Decoding is injective: at a port, only the word of a command is read as that command (R90, R91). -/

namespace Sys2Proof

/-- R90, R91: a word read as a command has that command's opcode and operand, so it is the command's word. -/
theorem encode_of_decode_ok {q : PortId} {w : CommandWord} {i : Instr} (h : decode q w = .ok i) : encode i = w := by
  obtain ⟨-, hd⟩ | ⟨-, -, hd⟩ | ⟨-, -, j, hd, hop, harg⟩ := decode_cases q w
  · cases h.symm.trans hd
  · cases h.symm.trans hd
  · cases h.symm.trans hd
    exact word_eq_iff.2 ⟨(encode_opcode i).trans hop, (encode_operand i).trans harg⟩

/-- Settles O7: `encode_of_decode_ok` and `port_of_decode_ok`. -/
theorem encodeAfterDecode : Obligations.EncodeAfterDecode := fun _ _ _ h =>
  ⟨encode_of_decode_ok h, decide_eq_true (port_of_decode_ok h)⟩

end Sys2Proof
end

section
/-! Power-on reset, and DEFAULTS with RESET as the commands that lead back to its lines and parameters (R113, R260, R261). -/

namespace Sys2Proof.Machine

open Sys2Proof.Claims

/-- Settles O13: the power-on lines are those that RESET leaves (`clearLines_zero`), and the other fields are literals. -/
theorem powerOnState : Obligations.PowerOnState := by
  have hlines := clearLines_zero State.reset.lines
  rw [clearLines_eq_reset_lines] at hlines
  exact ⟨fun k => (hlines k).2, fun k => (hlines k).1, by decide, by decide, by decide, by decide, rfl, rfl, rfl⟩

/-- R210: a SET stores an operand in range as it is, under either policy. -/
theorem accepted_of_inRange {p : ParamId} {v : ParamWord} (h : inRange p v = true) (policy : OorPolicy) (old : ParamWord) :
    accepted policy p old v = v := by
  cases hp : Config.paramRange p with
  | none => simp only [accepted, hp]
  | some range =>
    obtain ⟨hlo, hhi⟩ := (inRange_iff hp).1 h
    refine BitVec.eq_of_toInt_eq ((accepted_toInt hp policy old v).trans ?_)
    simp only [storedBy, Int.not_lt.2 hlo, Int.not_lt.2 hhi]
    cases policy <;> rfl

/-- R200: a SET with an operand in range writes it to its register. -/
theorem exec_setInstr_of_inRange {p : ParamId} {v : ParamWord} (h : inRange p v = true) (s : State) :
    ∃ t, exec (setInstr p v) s = .next t ∧ t.params = writeParam s.params p v :=
  ⟨_, exec_setInstr p v s, by rw [setParam_params, accepted_of_inRange h]⟩

/-- R113: DEFAULTS sets the four registers to their power-on values, whatever they hold and under either policy. -/
theorem execAll_defaultCommands (s : State) :
    ∃ t, execAll defaultCommands s = .next t ∧ t.params = State.reset.params := by
  obtain ⟨t₁, h₁, hg⟩ := exec_setInstr_of_inRange (p := .gain) (v := Config.gainDefault) rfl s
  obtain ⟨t₂, h₂, hr⟩ := exec_setInstr_of_inRange (p := .reverb) (v := Config.reverbDefault) (by decide) t₁
  obtain ⟨t₃, h₃, he⟩ := exec_setInstr_of_inRange (p := .echo) (v := Config.echoDefault) (by decide) t₂
  obtain ⟨t₄, h₄, hp⟩ := exec_setInstr_of_inRange (p := .pitch) (v := Config.pitchDefault) (by decide) t₃
  refine ⟨t₄, ?_, by rw [hp, he, hr, hg]; rfl⟩
  exact (execAll_cons_next h₁).trans <| (execAll_cons_next h₂).trans <| (execAll_cons_next h₃).trans <| execAll_cons_next h₄

/-- Settles O16: RESET leaves the power-on lines and keeps the parameters (`State.afterReset`), and after DEFAULTS
(`execAll_defaultCommands`) these are the power-on ones. -/
theorem defaultsThenResetIsPowerOn : Obligations.DefaultsThenResetIsPowerOn := by
  refine ⟨fun s => ⟨s.afterReset, exec_reset_eq_afterReset s, rfl, Iff.rfl⟩, fun s => ?_, rfl⟩
  obtain ⟨t, ht, hparams⟩ := execAll_defaultCommands s
  refine ⟨t.afterReset, ?_, rfl, hparams⟩
  rw [execAll_append ht, execAll_cons_next (exec_reset_eq_afterReset t), execAll_nil]

end Sys2Proof.Machine
end
